-- ==== Sys2Proof/Word.lean ====
section
/-! DEFINITION. The word types of the core (spec/00_scope.md R7, R9, R10): bytes, 32-bit words, register indices and
label ids. Register contents are words read as two's-complement integers through `BitVec.toInt`. -/

namespace Sys2Proof

/-- A program byte, an operand byte or an opcode byte (R7). -/
abbrev Byte := BitVec 8

/-- A 32-bit register content, line number, byte offset or status output (R7). -/
abbrev Word := BitVec 32

/-- The index of a general register, 0 to 31 (R20). -/
abbrev Reg := Fin 32

/-- R10: `INT_MIN = -2^31`. -/
def intMin : Int := -2 ^ 31

/-- R10: `INT_MAX = 2^31 - 1`. -/
def intMax : Int := 2 ^ 31 - 1

/-- R10: membership in `i32`, the set -2^31 to 2^31-1. -/
abbrev InI32 (v : Int) : Prop := intMin ≤ v ∧ v ≤ intMax

end Sys2Proof
end

