-- ==== Sys2Proof/Syntax.lean ====
section
/-! DEFINITION. The instructions (spec/30_encoding.md R81, R82, R84): one constructor per mnemonic of the opcode table. The
five IGL rows of the table share the constructor `igl`, which keeps the opcode byte. Operand bytes stay bytes: their values
are not checked at decode (R86). -/

namespace Sys2Proof

/-- An instruction with its operand bytes. `p`, `q`, `s` are double-indirect operands, `r` is LOAD's direct register
operand, `k` a literal byte (R82). -/
inductive Instr where
  | hlt
  | load (r : Byte) (imm : BitVec 16)
  | add (p q s : Byte)
  | sub (p q s : Byte)
  | div (p q s : Byte)
  | jmp (p : Byte)
  | rjmp (p : Byte)
  | vmcall (p q s : Byte)
  | eq (p q s : Byte)
  | jeq (p q : Byte)
  | neq (p q s : Byte)
  | jneq (p q : Byte)
  | swp (p q : Byte)
  | and (p q s : Byte)
  | or (p q s : Byte)
  | not (p q : Byte)
  | get (k p : Byte)
  | lockr (p : Byte)
  | pushrts (p : Byte)
  | poprfs (p : Byte)
  | brk
  | label (k : Byte)
  | goto (k : Byte)
  | igl (op : Byte)
  deriving DecidableEq, Repr

end Sys2Proof
end

