-- ==== Sys2Proof/WellFormed.lean ====
section
/-! DEFINITION. Which instructions stand for words of the core (spec/30_encoding.md R84 to R86). The one check: IGL's byte
is a byte with no mapping. Every operand byte is legal at every value (R86). -/

namespace Sys2Proof

/-- R85: the opcode bytes with no mapping, 7 and 24 to 255. -/
def isUnmapped (op : Byte) : Bool := op.toNat == 7 || decide (24 ≤ op.toNat)

/-- The check of well-formedness. -/
def Instr.wellFormed : Instr → Bool
  | .igl op => isUnmapped op
  | .hlt | .load _ _ | .add _ _ _ | .sub _ _ _ | .div _ _ _ | .jmp _ | .rjmp _ | .vmcall _ _ _ | .eq _ _ _ | .jeq _ _
  | .neq _ _ _ | .jneq _ _ | .swp _ _ | .and _ _ _ | .or _ _ _ | .not _ _ | .get _ _ | .lockr _ | .pushrts _ | .poprfs _
  | .brk | .label _ | .goto _ => true

/-- The instruction is one that some slot of bytes encodes. -/
abbrev Instr.WellFormed (i : Instr) : Prop := i.wellFormed = true

end Sys2Proof
end

