-- ==== Sys2Proof/Decode.lean ====
section
/-! DEFINITION. Decoding and encoding of slots (spec/30_encoding.md R80 to R89), and the slot word of 00_scope.md R9. The
decoder reads the bytes a slot still has inside the program: it is total, and rejects by naming the first byte that an
instruction needs and the list lacks (R114). -/

namespace Sys2Proof

/-- Why a list of bytes does not decode: the byte at this offset in the slot is needed and absent. -/
inductive DecodeError where
  | missingByte (offset : Nat)
  deriving DecidableEq, Repr

/-- An instruction of one operand byte (formats P1 and K1). -/
def readOne (rest : List Byte) (mk : Byte → Instr) : Except DecodeError Instr :=
  match rest with
  | b1 :: _ => .ok (mk b1)
  | [] => .error (.missingByte 1)

/-- An instruction of two operand bytes (formats P2 and KP). -/
def readTwo (rest : List Byte) (mk : Byte → Byte → Instr) : Except DecodeError Instr :=
  match rest with
  | b1 :: b2 :: _ => .ok (mk b1 b2)
  | [_] => .error (.missingByte 2)
  | [] => .error (.missingByte 1)

/-- An instruction of three operand bytes (formats P3 and I16). -/
def readThree (rest : List Byte) (mk : Byte → Byte → Byte → Instr) : Except DecodeError Instr :=
  match rest with
  | b1 :: b2 :: b3 :: _ => .ok (mk b1 b2 b3)
  | [_, _] => .error (.missingByte 3)
  | [_] => .error (.missingByte 2)
  | [] => .error (.missingByte 1)

/-- R83: LOAD's immediate, big-endian: B2 is the high byte. -/
def immOf (hi lo : Byte) : BitVec 16 := BitVec.ofNat 16 (hi.toNat * 256 + lo.toNat)

/-- R84, R113, R114: the opcode map and the operand bytes each format reads, in order. -/
def decode : List Byte → Except DecodeError Instr
  | [] => .error (.missingByte 0)
  | op :: rest =>
    match op.toNat with
    | 0 => .ok .hlt
    | 1 => readThree rest fun r hi lo => .load r (immOf hi lo)
    | 2 => readThree rest .add
    | 3 => readThree rest .sub
    | 4 => readThree rest .div
    | 5 => readOne rest .jmp
    | 6 => readOne rest .rjmp
    | 8 => readThree rest .vmcall
    | 9 => readThree rest .eq
    | 10 => readTwo rest .jeq
    | 11 => readThree rest .neq
    | 12 => readTwo rest .jneq
    | 13 => readTwo rest .swp
    | 14 => readThree rest .and
    | 15 => readThree rest .or
    | 16 => readTwo rest .not
    | 17 => readTwo rest .get
    | 18 => readOne rest .lockr
    | 19 => readOne rest .pushrts
    | 20 => readOne rest .poprfs
    | 21 => .ok .brk
    | 22 => readOne rest .label
    | 23 => readOne rest .goto
    | _ => .ok (.igl op)

/-- R84: the opcode byte of an instruction. -/
def Instr.opcode : Instr → Byte
  | .hlt => 0x00
  | .load _ _ => 0x01
  | .add _ _ _ => 0x02
  | .sub _ _ _ => 0x03
  | .div _ _ _ => 0x04
  | .jmp _ => 0x05
  | .rjmp _ => 0x06
  | .vmcall _ _ _ => 0x08
  | .eq _ _ _ => 0x09
  | .jeq _ _ => 0x0A
  | .neq _ _ _ => 0x0B
  | .jneq _ _ => 0x0C
  | .swp _ _ => 0x0D
  | .and _ _ _ => 0x0E
  | .or _ _ _ => 0x0F
  | .not _ _ => 0x10
  | .get _ _ => 0x11
  | .lockr _ => 0x12
  | .pushrts _ => 0x13
  | .poprfs _ => 0x14
  | .brk => 0x15
  | .label _ => 0x16
  | .goto _ => 0x17
  | .igl op => op

/-- R81: the operand bytes of an instruction, in encoding order. -/
def Instr.operandBytes : Instr → List Byte
  | .hlt | .brk | .igl _ => []
  | .load r imm => [r, imm.extractLsb' 8 8, imm.extractLsb' 0 8]
  | .add p q s | .sub p q s | .div p q s | .vmcall p q s | .eq p q s | .neq p q s | .and p q s | .or p q s => [p, q, s]
  | .jeq p q | .jneq p q | .swp p q | .not p q => [p, q]
  | .get k p => [k, p]
  | .jmp p | .rjmp p | .lockr p | .pushrts p | .poprfs p => [p]
  | .label k | .goto k => [k]

/-- R81: `n`, the number of operand bytes the core reads after the opcode. -/
def Instr.operandCount (i : Instr) : Nat := i.operandBytes.length

/-- R80, R90: the four bytes of an instruction's slot, B0 first, padding assembled as 0x00. -/
def encode (i : Instr) : List Byte :=
  i.opcode :: (i.operandBytes ++ List.replicate (3 - i.operandCount) 0x00)

/-- R9, R80: the four bytes of a slot word, B0 = w[31:24] first. -/
def slotBytesOfWord (w : Nat) : List Byte :=
  [BitVec.ofNat 8 (w / 2 ^ 24), BitVec.ofNat 8 (w / 2 ^ 16), BitVec.ofNat 8 (w / 2 ^ 8), BitVec.ofNat 8 w]

/-- The instruction the decoder reads from a word of the opcode table: every row is a 32-bit slot word (R9, R80), bits above
`nbits` are 0. -/
def decodeTableWord (nbits w : Nat) : Option Instr :=
  if nbits = 0 ∨ 32 < nbits then none
  else
    match decode (slotBytesOfWord (w % 2 ^ nbits)) with
    | .ok i => some i
    | .error _ => none

end Sys2Proof
end

