-- ==== Sys2Proof/Config.lean ====
section
/-! DEFINITION. The implementation parameters of the core (spec/00_scope.md R7): the constants the spec fixes, and the
four parameters it names for a model's configuration, with the values it takes and every alternative it names. -/

namespace Sys2Proof

/-- OVERFLOW_MODE (R7, R144): what ADD and SUB do with a result outside `i32`. -/
inductive OverflowMode where
  /-- Raise the fatal fault ARITH_OVERFLOW (the spec's value). -/
  | fault
  /-- Write `wrap32` of the result. -/
  | wrap
  deriving DecidableEq, Repr

/-- UNRESOLVED_GOTO (R7, R206): what GOTO of an unbound label does after its soft error. -/
inductive UnresolvedGoto where
  /-- Run the same GOTO again (the spec's value). -/
  | retry
  /-- Advance to the next slot. -/
  | fallThrough
  /-- Raise the fatal fault GOTO_UNRESOLVED. -/
  | fault
  deriving DecidableEq, Repr

/-- GET_ID_MODE (R7, R181): how GET's first operand names the hidden register. -/
inductive GetIdMode where
  /-- The operand byte is the id (the spec's value). -/
  | literal
  /-- The id is `x[Ptr(B1)]`. -/
  | indirect
  deriving DecidableEq, Repr

/-- The configuration of a core, constant for its life. State holds one, and no step changes it (log 6). -/
structure Config where
  /-- STACK_DEPTH: capacity of the value stack, the reset sentinel included (R7, R24). -/
  stackDepth : Nat
  overflowMode : OverflowMode
  unresolvedGoto : UnresolvedGoto
  getIdMode : GetIdMode
  deriving DecidableEq, Repr

/-- The values the spec takes (R7). -/
def Config.spec : Config where
  stackDepth := 32
  overflowMode := .fault
  unresolvedGoto := .retry
  getIdMode := .literal

/-- The greatest PROG_LEN (R7, R39): 2^31. -/
def maxProgLen : Nat := 2 ^ 31

/-- The greatest line number a branch may name (R120): 2^31 - 1. -/
def maxLine : Nat := 2 ^ 31 - 1

end Sys2Proof
end

