-- ==== Sys2Proof/Machine/State.lean ====
section
/-! DEFINITION. The state of the core (spec/10_state.md R20 to R43), as plain data, and its reset value. Views of stored
state (STATUS, LINE, PC, USAGE_COUNT, the port outputs) are functions in Machine/Ports.lean. -/

namespace Sys2Proof.Machine

/-- R28: the run state. -/
inductive RunState where
  /-- After reset; program load and preload allowed; no instruction executes. -/
  | idle
  /-- Instructions execute. -/
  | running
  /-- Stopped at a BREAK until resumed. -/
  | suspended
  /-- Stopped normally. -/
  | halted
  /-- Stopped by a fatal fault. -/
  | faulted
  deriving DecidableEq, Repr

/-- R243: why a run halted. -/
inductive HaltCause where
  | hlt
  /-- END: the program counter reached the end of the program. -/
  | ended
  | exit
  | illegal
  deriving DecidableEq, Repr

/-- R241: why a run faulted. -/
inductive FaultCause where
  | none
  | regIndexRange
  | regPointerRange
  | divZero
  | stackUnderflow
  | badHostcall
  | stackOverflow
  | arithOverflow
  | divOverflow
  | programOverrun
  | branchRange
  | gotoUnresolved
  deriving DecidableEq, Repr

/-- R242: the soft errors. -/
inductive SoftCause where
  | lockedWrite
  | boolDomain
  | unresolvedLabel
  deriving DecidableEq, Repr

/-- R40: the kinds of event. -/
inductive EventKind where
  | print
  | softError
  deriving DecidableEq, Repr

/-- R40: an event of the event port, without `ev_valid`. -/
structure Event where
  kind : EventKind
  code : BitVec 4
  line : Word
  data : Word
  deriving DecidableEq, Repr

/-- R25: an entry of the label table. -/
structure LabelEntry where
  valid : Bool
  loc : Word
  deriving DecidableEq, Repr

/-- R250, R124: what an instruction still has to do when it waits for an event's acceptance, in order, up to its end. -/
inductive Rest where
  /-- `Advance()` (R119). -/
  | advance
  /-- `UnresolvedGoto()` (R206). -/
  | unresolvedGoto
  /-- `rem <- v` (R143, R181), then the rest. -/
  | setRem (v : Word) (next : Rest)
  /-- `Write(k, v)` (R118), then the rest. -/
  | write (k : Reg) (v : Word) (next : Rest)
  deriving DecidableEq, Repr

/-- R38, R42: what the host can do in one transaction. DESIGN CHOICE (log 3): transactions land between steps. -/
inductive HostAction where
  /-- The host does nothing; the core takes its step. -/
  | pass
  /-- `rst` (R280). -/
  | reset
  /-- Program load: the bytes P[0 .. PROG_LEN-1] (R281). -/
  | load (bytes : List Byte)
  /-- One write of the preload port (R282). -/
  | preload (index : Reg) (value : Word) (lock : Bool)
  /-- `start` (R283). -/
  | start
  /-- `dbg_resume` (R41, R224). -/
  | resume
  /-- Drive `ev_ready` to this level (R40). -/
  | setReady (level : Bool)
  /-- Raise `ev_ready` for one acceptance only (R40, R250; log 5). -/
  | accept
  deriving DecidableEq, Repr

/-- Program memory: (address, byte) pairs, addresses strictly rising, no byte equal to what an unlisted address reads as
(`Memory.wf` in Machine/Ops.lean). -/
abbrev Memory := List Host.Cell

/-- The whole state. -/
structure State where
  /-- R20: `x[0..31]`. -/
  regs : Vector Word 32
  /-- R22: `lock[0..31]`. -/
  locks : Vector Bool 32
  /-- R23: the hidden remainder register. -/
  rem : Word
  /-- R24: the value stack `S`, its top last. -/
  stack : List Word
  /-- R25: the label table `LT`. -/
  labels : Vector LabelEntry 256
  /-- R27: `program_set_counter`. -/
  line : Word
  /-- R27: `program_counter`. -/
  pc : Word
  /-- R28: `state`. -/
  runState : RunState
  /-- R29: `STATUS.halt_cause`. -/
  haltCause : HaltCause
  /-- R29: `STATUS.fault_cause`. -/
  faultCause : FaultCause
  /-- R29: `STATUS.illegal_byte`. -/
  illegalByte : Byte
  /-- R30: `EXIT_CODE`. -/
  exitCode : Word
  /-- R31: `FAULT_LINE`. -/
  faultLine : Word
  /-- R31: `FAULT_OFFSET`. -/
  faultOffset : Word
  /-- R39: the program bytes (log 8). -/
  prog : Memory
  /-- R39: `PROG_LEN`. -/
  progLen : Nat
  /-- R250: every event emitted in this run, oldest first. -/
  events : List Event
  /-- R250, R254: while the core waits for the acceptance of the newest event, what the instruction then still does. -/
  stalled : Option Rest
  /-- R40: the level of `ev_ready` (log 4). -/
  evReady : Bool
  /-- R42: the host's transactions to come, one a step (the model's own field, log 3). -/
  inbox : List HostAction
  /-- R7: the parameters, constant (log 6). -/
  config : Config
  deriving DecidableEq, Repr

/-- The faults of the host's interface. There are none: every fatal fault of the spec (R121, R241) has its entry described
there and is a NEXT state in FAULTED, safe (log 1). -/
inductive Fault
  deriving DecidableEq, Repr

/-- What the model refuses. -/
inductive Refusal where
  /-- An instruction of the opcode table that has no meaning yet; raised by exec's arm only; safe. -/
  | notModelled (mnemonic : String)
  /-- A host load of more than 2^31 bytes, which is not loadable (93_implementation_defined.md U19: `refuse`); raised by the
  host's program load, by no instruction; safe (log 9). -/
  | programTooLong
  deriving DecidableEq, Repr

/-- What a step or a meaning answers. -/
abbrev Result := Host.Outcome State Fault Refusal

/-- R43: the label table at reset: the sentinel `(id 0, line 0)`, every other entry invalid with loc 0. -/
def resetLabels : Vector LabelEntry 256 :=
  (Vector.replicate 256 { valid := false, loc := 0 }).set 0 { valid := true, loc := 0 }

/-- R43, R280: the core after reset, with the spec's parameters (R7), no host transaction to come (log 3) and `ev_ready`
high (log 4, DESIGN CHOICE). -/
def State.reset : State where
  regs := Vector.replicate 32 0
  locks := Vector.replicate 32 false
  rem := 0
  stack := [0]
  labels := resetLabels
  line := 0
  pc := 0
  runState := .idle
  haltCause := .hlt
  faultCause := .none
  illegalByte := 0
  exitCode := 0
  faultLine := 0
  faultOffset := 0
  prog := []
  progLen := 0
  events := []
  stalled := none
  evReady := true
  inbox := []
  config := .spec

end Sys2Proof.Machine
end

