-- ==== Sys2Proof/Machine/Ops.lean ====
section
/-! DEFINITION. The named operations over program memory, registers, counters, status and the event trace, which every
meaning uses: spec/40_execution.md R114 and R118 to R123, spec/60_exceptions.md R241, R242, R250. -/

namespace Sys2Proof.Machine

/-! ### Program memory -/

/-- What an address that no entry lists reads as: 0x00 (log 8). -/
def Memory.unlisted : Byte := 0

/-- The byte at an address. -/
def Memory.read : Memory → Nat → Byte
  | [], _ => Memory.unlisted
  | (b, v) :: m, a => if a = b then v else Memory.read m a

/-- The memory with one byte changed, in canonical form again. -/
def Memory.write : Memory → Nat → Byte → Memory
  | [], a, v => if v = Memory.unlisted then [] else [(a, v)]
  | (b, w) :: m, a, v =>
    if a < b then (if v = Memory.unlisted then (b, w) :: m else (a, v) :: (b, w) :: m)
    else if a = b then (if v = Memory.unlisted then m else (a, v) :: m)
    else (b, w) :: Memory.write m a v

/-- The memory that holds a list of bytes from an address on. -/
def Memory.ofBytes (a : Nat) : List Byte → Memory
  | [] => []
  | v :: vs => if v = Memory.unlisted then Memory.ofBytes (a + 1) vs else (a, v) :: Memory.ofBytes (a + 1) vs

/-- The canonical form from an address on: addresses strictly rising, no entry that reads as if unlisted. -/
def Memory.wfFrom (lo : Nat) : Memory → Bool
  | [] => true
  | (a, v) :: m => decide (lo ≤ a) && decide (v ≠ Memory.unlisted) && Memory.wfFrom (a + 1) m

/-- The canonical form of program memory. -/
def Memory.wf (m : Memory) : Bool := Memory.wfFrom 0 m

/-- R11: `P[a]`. -/
def State.progByte (s : State) (a : Nat) : Byte := Memory.read s.prog a

/-! ### Registers -/

/-- R11: `x[i]`. -/
def State.x (s : State) (i : Reg) : Word := s.regs.get i

/-- R11: `lock[i]`. -/
def State.locked (s : State) (i : Reg) : Bool := s.locks.get i

/-- R11: `x[i] <- v`, unchecked. -/
def State.setX (s : State) (i : Reg) (v : Word) : State := { s with regs := s.regs.set i v i.isLt }

/-- R23: the write of `rem`, never lock-checked. -/
def State.setRem (s : State) (v : Word) : State := { s with rem := v }

/-- R24: the whole stack replaced. -/
def State.setStack (s : State) (st : List Word) : State := { s with stack := st }

/-- R25: the label table entry of an id. -/
def State.labelAt (s : State) (k : Byte) : LabelEntry := s.labels.get k.toFin

/-- R204: fill the entry of an id with the current line. -/
def State.bindLabel (s : State) (k : Byte) : State :=
  { s with labels := s.labels.set k.toNat { valid := true, loc := s.line } k.isLt }

/-! ### Events and soft errors -/

/-- R242: the cause codes of soft errors. -/
def SoftCause.code : SoftCause → BitVec 4
  | .lockedWrite => 1
  | .boolDomain => 2
  | .unresolvedLabel => 3

/-- R250: the event in the trace of the port. -/
def State.record (s : State) (e : Event) : State := { s with events := s.events ++ [e] }

/-- R250: the core waits for the acceptance of the newest event, with `r` still to do. -/
def State.stallWith (s : State) (r : Rest) : State := { s with stalled := some r }

/-- R122, R242: the event of a soft error of the current instruction. -/
def State.softEvent (s : State) (c : SoftCause) (data : Word) : Event :=
  { kind := .softError, code := c.code, line := s.line, data := data }

/-! ### The end of an instruction -/

/-- R27, R64: the byte address of a line, exact (at least 33 bits). -/
def lineAddress (l : Word) : Nat := l.toNat * 4

/-- The byte address of a line in the 32 bits of `pc` (R119). -/
def linePc (l : Word) : Word := BitVec.ofNat 32 (lineAddress l)

/-- R119: `Advance()`. -/
def State.advance (s : State) : State := { s with line := s.line + 1, pc := linePc (s.line + 1) }

/-- R121: `raise Fault(cause)`, the one entry of every fatal fault. -/
def State.raise (s : State) (c : FaultCause) : State :=
  { s with faultCause := c, faultLine := s.line, faultOffset := s.pc, runState := .faulted }

/-- R123: `Halt(cause, code)`. -/
def State.halt (s : State) (c : HaltCause) (code : Word) : State :=
  { s with haltCause := c, exitCode := code, runState := .halted }

/-- R120: `BranchTo(t)`, t an exact integer. -/
def State.branchTo (s : State) (t : Int) : State :=
  if t < 0 ∨ (maxLine : Int) < t then s.raise .branchRange else { s with line := BitVec.ofInt 32 t, pc := 0 }

/-- R206: `UnresolvedGoto()` under each policy. -/
def State.unresolvedGoto (s : State) : State :=
  match s.config.unresolvedGoto with
  | .retry => { s with pc := linePc s.line }
  | .fallThrough => s.advance
  | .fault => s.raise .gotoUnresolved

/-! ### The effects of an instruction -/

/-- R124 (6), (7): the effects an instruction has left, in order. The write is `Write(k, v)` of R118; where it is rejected,
its event is emitted (R250), and the rest waits inside the instruction when `ev_ready` is low. -/
def State.finish : Rest → State → State
  | .advance, s => s.advance
  | .unresolvedGoto, s => s.unresolvedGoto
  | .setRem v r, s => State.finish r (s.setRem v)
  | .write k v r, s =>
    if s.locked k then
      let t := s.record (s.softEvent .lockedWrite (BitVec.ofNat 32 k.val))
      if s.evReady then State.finish r t else t.stallWith r
    else State.finish r (s.setX k v)

/-- R250: `Emit(e)`, then the rest; with `ev_ready` low the rest waits for the acceptance. -/
def State.emitThen (s : State) (e : Event) (r : Rest) : State :=
  if s.evReady then State.finish r (s.record e) else (s.record e).stallWith r

/-- `Write(k, v); Advance()`, the end of most instructions (R118, R119). -/
def State.put (s : State) (k : Reg) (v : Word) : State := State.finish (.write k v .advance) s

/-- R250: the presented event is accepted and the instruction continues. -/
def State.acceptEvent (s : State) : State :=
  match s.stalled with
  | none => s
  | some r => State.finish r { s with stalled := none }

end Sys2Proof.Machine
end

