-- ==== Sys2Proof/Machine/Operands.lean ====
section
/-! DEFINITION. Operand resolution (spec/40_execution.md R115 to R117): the two addressing modes, and resolution of one,
two and three operands in byte order from the state before the instruction. -/

namespace Sys2Proof.Machine

/-- R115: `Reg(b)`, direct resolution. -/
def resolveDirect (b : Byte) : Except FaultCause Reg :=
  if h : b.toNat < 32 then .ok ⟨b.toNat, h⟩ else .error .regIndexRange

/-- R116: `Ptr(b)`, double-indirect resolution. -/
def State.ptr (s : State) (b : Byte) : Except FaultCause Reg :=
  match resolveDirect b with
  | .error c => .error c
  | .ok r =>
    if h : (s.x r).toNat < 32 then .ok ⟨(s.x r).toNat, h⟩ else .error .regPointerRange

/-- Go on with a resolved operand, or take the fault of its resolution. -/
def State.orRaise (s : State) (r : Except FaultCause Reg) (k : Reg → Result) : Result :=
  match r with
  | .error c => .next (s.raise c)
  | .ok i => k i

/-- R117: one double-indirect operand. -/
def State.withPtr (s : State) (p : Byte) (k : Reg → Result) : Result := s.orRaise (s.ptr p) k

/-- R117: two double-indirect operands in byte order. -/
def State.withPtr2 (s : State) (p q : Byte) (k : Reg → Reg → Result) : Result :=
  s.withPtr p fun i => s.withPtr q fun j => k i j

/-- R117: three double-indirect operands in byte order. -/
def State.withPtr3 (s : State) (p q r : Byte) (k : Reg → Reg → Reg → Result) : Result :=
  s.withPtr p fun i => s.withPtr q fun j => s.withPtr r fun l => k i j l

end Sys2Proof.Machine
end

