-- ==== Sys2Proof/Machine/Flags.lean ====
section
/-! DEFINITION. The core has no flags but the lock flags (spec/10_state.md R33). Here: the lock toggle, the 0-or-1 results
that comparisons and boolean instructions write (spec/42_compare_logic.md), and the overflow test and the division of
integers (spec/00_scope.md R10, spec/41_load_arith.md). -/

namespace Sys2Proof.Machine

/-- R182: `lock[t] <- 1 - lock[t]`. -/
def State.toggleLock (s : State) (t : Reg) : State := { s with locks := s.locks.set t (!s.locked t) t.isLt }

/-- R33: a truth value as a register content. -/
def boolWord (b : Bool) : Word := if b then 1 else 0

/-- R162: membership in {0, 1}. -/
def inBoolDomain (v : Word) : Bool := v == 0 || v == 1

/-- R10: `wrap32(v)`, and the content of a value in `i32`. -/
def wrap32 (v : Int) : Word := BitVec.ofInt 32 v

/-- R10: `tdiv(a, b)`, rounded toward zero. -/
def tdiv (a b : Int) : Int := a.tdiv b

/-- R10: `trem(a, b) = a - b * tdiv(a, b)`. -/
def trem (a b : Int) : Int := a - b * tdiv a b

/-- R141, R142, R144: the end of ADD and SUB: write an exact result in `i32`, else fault or wrap by OVERFLOW_MODE. -/
def State.putExact (s : State) (k : Reg) (v : Int) : State :=
  if InI32 v then s.put k (wrap32 v)
  else
    match s.config.overflowMode with
    | .fault => s.raise .arithOverflow
    | .wrap => s.put k (wrap32 v)

/-- R162: the end of AND, OR and NOT: write when every source is in {0,1}, else one soft error and no write. -/
def State.putBool (s : State) (inDomain : Bool) (k : Reg) (v : Word) : State :=
  if inDomain then s.put k v else s.emitThen (s.softEvent .boolDomain 0) .advance

end Sys2Proof.Machine
end

