-- ==== Sys2Proof/Machine/CompareLogic.lean ====
section
/-! DEFINITION. EQ, NEQ, AND, OR, NOT (spec/42_compare_logic.md). -/

namespace Sys2Proof.Machine

/-- R160. -/
def execEq (p q d : Byte) (s : State) : Result :=
  s.withPtr3 p q d fun i j k => .next (s.put k (boolWord (s.x i == s.x j)))

/-- R161. -/
def execNeq (p q d : Byte) (s : State) : Result :=
  s.withPtr3 p q d fun i j k => .next (s.put k (boolWord (s.x i != s.x j)))

/-- R162, R163. -/
def execAnd (p q d : Byte) (s : State) : Result :=
  s.withPtr3 p q d fun i j k =>
    .next (s.putBool (inBoolDomain (s.x i) && inBoolDomain (s.x j)) k (boolWord (s.x i == 1 && s.x j == 1)))

/-- R162, R164. -/
def execOr (p q d : Byte) (s : State) : Result :=
  s.withPtr3 p q d fun i j k =>
    .next (s.putBool (inBoolDomain (s.x i) && inBoolDomain (s.x j)) k (boolWord (s.x i == 1 || s.x j == 1)))

/-- R162, R165. -/
def execNot (p d : Byte) (s : State) : Result :=
  s.withPtr2 p d fun i k => .next (s.putBool (inBoolDomain (s.x i)) k (1 - s.x i))

end Sys2Proof.Machine
end

