-- ==== Sys2Proof/Machine/Control.lean ====
section
/-! DEFINITION. JMP, RJMP, JEQ, JNEQ, LABEL, GOTO (spec/45_control.md). -/

namespace Sys2Proof.Machine

/-- R200. -/
def execJmp (p : Byte) (s : State) : Result :=
  s.withPtr p fun i => .next (s.branchTo (s.x i).toInt)

/-- R201: the offset counts from the RJMP's own line, and the sum is exact. -/
def execRjmp (p : Byte) (s : State) : Result :=
  s.withPtr p fun i => .next (s.branchTo (s.line.toNat + (s.x i).toInt))

/-- R202, R203: the branch when the condition register holds a value, else fall through. -/
def State.branchWhen (s : State) (taken : Bool) (t : Int) : State :=
  if taken then s.branchTo t else s.advance

/-- R202. -/
def execJeq (p q : Byte) (s : State) : Result :=
  s.withPtr2 p q fun i j => .next (s.branchWhen (s.x i == 1) (s.x j).toInt)

/-- R203. -/
def execJneq (p q : Byte) (s : State) : Result :=
  s.withPtr2 p q fun i j => .next (s.branchWhen (s.x i == 0) (s.x j).toInt)

/-- R204: the first binding of an id is kept. -/
def execLabel (k : Byte) (s : State) : Result :=
  .next (if (s.labelAt k).valid then s.advance else (s.bindLabel k).advance)

/-- R205, R206. -/
def execGoto (k : Byte) (s : State) : Result :=
  .next
    (if (s.labelAt k).valid then s.branchTo (s.labelAt k).loc.toNat
     else s.emitThen (s.softEvent .unresolvedLabel (k.setWidth 32)) .unresolvedGoto)

end Sys2Proof.Machine
end

