-- ==== Sys2Proof/Machine/LoadArith.lean ====
section
/-! DEFINITION. LOAD, ADD, SUB, DIV (spec/41_load_arith.md). -/

namespace Sys2Proof.Machine

/-- R140. -/
def execLoad (r : Byte) (imm : BitVec 16) (s : State) : Result :=
  s.orRaise (resolveDirect r) fun k => .next (s.put k (imm.setWidth 32))

/-- R141. -/
def execAdd (p q d : Byte) (s : State) : Result :=
  s.withPtr3 p q d fun i j k => .next (s.putExact k ((s.x i).toInt + (s.x j).toInt))

/-- R142. -/
def execSub (p q d : Byte) (s : State) : Result :=
  s.withPtr3 p q d fun i j k => .next (s.putExact k ((s.x i).toInt - (s.x j).toInt))

/-- R143, after its operands: DIV_ZERO before DIV_OVERFLOW, then the quotient and `rem`. -/
def State.divide (s : State) (a b : Int) (k : Reg) : State :=
  if b = 0 then s.raise .divZero
  else if a = intMin ∧ b = -1 then s.raise .divOverflow
  else State.finish (.write k (wrap32 (tdiv a b)) (.setRem (wrap32 (trem a b)) .advance)) s

/-- R143. -/
def execDiv (p q d : Byte) (s : State) : Result :=
  s.withPtr3 p q d fun i j k => .next (s.divide (s.x i).toInt (s.x j).toInt k)

end Sys2Proof.Machine
end

