-- ==== Sys2Proof/Machine/RegisterOps.lean ====
section
/-! DEFINITION. SWP, GET, LOCKR (spec/43_register_ops.md). -/

namespace Sys2Proof.Machine

/-- R180: both values are read before either write; each write is checked on its own. -/
def execSwp (p q : Byte) (s : State) : Result :=
  s.withPtr2 p q fun i j => .next (State.finish (.write i (s.x j) (.write j (s.x i) .advance)) s)

/-- R181, after its operands: id 0 reads `rem` and clears it, any other id gives 0. -/
def State.getHidden (s : State) (isRem : Bool) (d : Reg) : State :=
  if isRem then State.finish (.write d s.rem (.setRem 0 .advance)) s else s.put d 0

/-- R181, under each GET_ID_MODE (log 16). -/
def execGet (k p : Byte) (s : State) : Result :=
  match s.config.getIdMode with
  | .literal => s.withPtr p fun d => .next (s.getHidden (k == 0) d)
  | .indirect => s.withPtr2 k p fun i d => .next (s.getHidden (s.x i == 0) d)

/-- R182. -/
def execLockr (p : Byte) (s : State) : Result :=
  s.withPtr p fun t => .next (s.toggleLock t).advance

end Sys2Proof.Machine
end

