-- ==== Sys2Proof/Machine/Stack.lean ====
section
/-! DEFINITION. PUSHRTS and POPRFS (spec/44_stack.md). -/

namespace Sys2Proof.Machine

/-- R190, after its operand: the push, then the clearing write (log 15 for the full test). -/
def State.pushFrom (s : State) (t : Reg) : State :=
  if s.config.stackDepth ≤ s.stack.length then s.raise .stackOverflow
  else (s.setStack (s.stack ++ [s.x t])).put t 0

/-- R190. -/
def execPushrts (p : Byte) (s : State) : Result :=
  s.withPtr p fun t => .next (s.pushFrom t)

/-- R191, after its operand: the pop, then the write. -/
def State.popInto (s : State) (t : Reg) : State :=
  match s.stack.getLast? with
  | none => s.raise .stackUnderflow
  | some v => (s.setStack s.stack.dropLast).put t v

/-- R191. -/
def execPoprfs (p : Byte) (s : State) : Result :=
  s.withPtr p fun t => .next (s.popInto t)

end Sys2Proof.Machine
end

