-- ==== Sys2Proof/Machine/System.lean ====
section
/-! DEFINITION. VMCALL, BREAK, HLT, IGL (spec/46_system.md). -/

namespace Sys2Proof.Machine

/-- R220 to R223, after the operands: name 0 prints, name 1 exits, any other name is fatal. -/
def State.hostCall (s : State) (name arg1 arg2 : Word) : State :=
  if name = 0 then
    s.emitThen { kind := .print, code := if arg1 = 0 then 0 else 1, line := s.line, data := arg2 } .advance
  else if name = 1 then s.halt .exit arg2
  else s.raise .badHostcall

/-- R220. -/
def execVmcall (p q r : Byte) (s : State) : Result :=
  s.withPtr3 p q r fun i j k => .next (s.hostCall (s.x i) (s.x j) (s.x k))

/-- R224, up to the suspension; `HostAction.resume` does the rest (Machine/Ports.lean). -/
def execBrk (s : State) : Result := .next { s with runState := .suspended }

/-- R225. -/
def execHlt (s : State) : Result := .next (s.halt .hlt 0)

/-- R226. -/
def execIgl (op : Byte) (s : State) : Result := .next ({ s with illegalByte := op }.halt .illegal 4)

end Sys2Proof.Machine
end

