-- ==== Sys2Proof/Machine/Dispatch.lean ====
section
/-! DEFINITION. The dispatch of R110: one arm per constructor, each a call of its meaning. -/

namespace Sys2Proof.Machine

def exec (i : Instr) (s : State) : Host.Outcome State Fault Refusal :=
  match i with
  | .hlt => Sys2Proof.Machine.execHlt s
  | .load r imm => Sys2Proof.Machine.execLoad r imm s
  | .add p q d => Sys2Proof.Machine.execAdd p q d s
  | .sub p q d => Sys2Proof.Machine.execSub p q d s
  | .div p q d => Sys2Proof.Machine.execDiv p q d s
  | .jmp p => Sys2Proof.Machine.execJmp p s
  | .rjmp p => Sys2Proof.Machine.execRjmp p s
  | .vmcall p q r => Sys2Proof.Machine.execVmcall p q r s
  | .eq p q d => Sys2Proof.Machine.execEq p q d s
  | .jeq p q => Sys2Proof.Machine.execJeq p q s
  | .neq p q d => Sys2Proof.Machine.execNeq p q d s
  | .jneq p q => Sys2Proof.Machine.execJneq p q s
  | .swp p q => Sys2Proof.Machine.execSwp p q s
  | .and p q d => Sys2Proof.Machine.execAnd p q d s
  | .or p q d => Sys2Proof.Machine.execOr p q d s
  | .not p d => Sys2Proof.Machine.execNot p d s
  | .get k p => Sys2Proof.Machine.execGet k p s
  | .lockr p => Sys2Proof.Machine.execLockr p s
  | .pushrts p => Sys2Proof.Machine.execPushrts p s
  | .poprfs p => Sys2Proof.Machine.execPoprfs p s
  | .brk => Sys2Proof.Machine.execBrk s
  | .label k => Sys2Proof.Machine.execLabel k s
  | .goto k => Sys2Proof.Machine.execGoto k s
  | .igl op => Sys2Proof.Machine.execIgl op s

end Sys2Proof.Machine
end

