-- ==== Sys2Proof/Machine/Ports.lean ====
section
/-! DEFINITION. The core's ports at transaction level (spec/10_state.md R28 to R42, spec/60_exceptions.md R241, R243, R250,
spec/70_reset_and_hazards.md R280 to R283): the outputs as views of the state, and the host's transactions. -/

namespace Sys2Proof.Machine

/-! ### Outputs -/

/-- R28. -/
def RunState.code : RunState → BitVec 3
  | .idle => 0
  | .running => 1
  | .suspended => 2
  | .halted => 3
  | .faulted => 4

/-- R243. -/
def HaltCause.code : HaltCause → BitVec 2
  | .hlt => 0
  | .ended => 1
  | .exit => 2
  | .illegal => 3

/-- R241. -/
def FaultCause.code : FaultCause → BitVec 4
  | .none => 0
  | .regIndexRange => 1
  | .regPointerRange => 2
  | .divZero => 3
  | .stackUnderflow => 4
  | .badHostcall => 5
  | .stackOverflow => 6
  | .arithOverflow => 7
  | .divOverflow => 8
  | .programOverrun => 9
  | .branchRange => 10
  | .gotoUnresolved => 11

/-- R40. -/
def EventKind.code : EventKind → BitVec 2
  | .print => 1
  | .softError => 2

/-- R29: the status word, from bit 31 down. -/
def State.status (s : State) : Word :=
  0#8 ++ s.illegalByte ++ 0#4 ++ s.faultCause.code ++ 0#3 ++ s.haltCause.code ++ s.runState.code

/-- R32: `LINE`; no value while RUNNING (log 10). -/
def State.lineOut (s : State) : Option Word := if s.runState = .running then none else some s.line

/-- R32: `PC`; no value while RUNNING (log 10). -/
def State.pcOut (s : State) : Option Word := if s.runState = .running then none else some s.pc

/-- R35: `USAGE_COUNT`. -/
def State.usageCount (s : State) : BitVec 6 := BitVec.ofNat 6 (s.regs.toList.countP (· != 0))

/-- R41: `dbg_data` and `dbg_lock` at `dbg_addr`, the hard-wired lock flag of `rem` (R23) included; no value while RUNNING
(log 10). -/
def State.dbgRead (s : State) (addr : BitVec 6) : Option (Word × Bool) :=
  if s.runState = .running then none
  else if h : addr.toNat < 32 then some (s.x ⟨addr.toNat, h⟩, s.locked ⟨addr.toNat, h⟩)
  else if addr.toNat = 32 then some (s.rem, false)
  else some (0, false)

/-- R40, R250: the event presented, if `ev_valid = 1`: the newest one, while the core waits for its acceptance. -/
def State.evPort (s : State) : Option Event :=
  if s.stalled = none then none else s.events.getLast?

/-! ### Inputs -/

/-- R280: `rst`, from any state; the parameters and the host's own lines and plans stay (log 11). -/
def State.hostReset (s : State) : State :=
  { State.reset with config := s.config, evReady := s.evReady, inbox := s.inbox }

/-- R281: program load while IDLE, as one transaction; a program longer than 2^31 bytes is not loadable (log 9). -/
def State.hostLoad (s : State) (bytes : List Byte) : Result :=
  if s.runState = .idle then
    if maxProgLen < bytes.length then .refused .programTooLong
    else .next { s with prog := Memory.ofBytes 0 bytes, progLen := bytes.length }
  else .next s

/-- R282: one write of the preload port, without the lock check; no effect outside IDLE (R42). -/
def State.hostPreload (s : State) (i : Reg) (v : Word) (l : Bool) : State :=
  if s.runState = .idle then { s with regs := s.regs.set i v i.isLt, locks := s.locks.set i l i.isLt } else s

/-- R283: `start`; no effect outside IDLE. -/
def State.hostStart (s : State) : State :=
  if s.runState = .idle then { s with runState := .running } else s

/-- R41, R224: `dbg_resume`: the rest of the BREAK; no effect outside SUSPENDED. -/
def State.hostResume (s : State) : State :=
  if s.runState = .suspended then { s with runState := .running }.advance else s

/-- R40: the host drives `ev_ready`. DESIGN CHOICE (log 21): raising the level accepts no event in this transaction; the core's
next own step does, if the level is still high then. -/
def State.hostSetReady (s : State) (level : Bool) : State := { s with evReady := level }

/-- R40, R250: one acceptance, `ev_ready` being low before and after it (log 5). -/
def State.hostAccept (s : State) : State := if s.runState = .running then s.acceptEvent else s

end Sys2Proof.Machine
end

