-- ==== Sys2Proof/Machine/Cycle.lean ====
section
/-! DEFINITION. The instruction cycle (spec/40_execution.md R110 to R114): fetch, decode, execute, the terminal test, the
waiting states (spec/60_exceptions.md R250, R254), and the host's transactions between steps. -/

namespace Sys2Proof.Machine

/-- R112: `fa = line * 4`, exact. -/
def State.fetchAddress (s : State) : Nat := lineAddress s.line

/-- R80, R114: the bytes of the slot at an address that lie inside the program, at most four. -/
def State.slotBytes (s : State) (fa : Nat) : List Byte :=
  (List.range (min 4 (s.progLen - fa))).map fun k => s.progByte (fa + k)

/-- R112 to R114: the instruction of the current line, or the address of the first byte needed that is not readable. -/
def State.fetch (s : State) : Except Nat Instr :=
  match decode (s.slotBytes s.fetchAddress) with
  | .ok i => .ok i
  | .error (.missingByte k) => .error (s.fetchAddress + k)

/-- R110: `Step()`. PROGRAM_OVERRUN leaves `pc` at the unreadable address (mod 2^32); execution begins with
`pc = fa + 1 + n`. -/
def runStep (s : State) : Result :=
  if s.progLen ≤ s.pc.toNat then .next (s.halt .ended 0)
  else
    match s.fetch with
    | .error a => .next ({ s with pc := BitVec.ofNat 32 a }.raise .programOverrun)
    | .ok i => exec i { s with pc := BitVec.ofNat 32 (s.fetchAddress + 1 + i.operandCount) }

/-- What the core does when the host does nothing: run an instruction; wait inside one for its event's acceptance, and go on
with it if `ev_ready` is high at this step (R250; log 21); or hold its state (R254; log 2). -/
def coreStep (s : State) : Result :=
  match s.runState with
  | .running =>
    match s.stalled with
    | none => runStep s
    | some _ => .next (if s.evReady then s.acceptEvent else s)
  | .idle | .suspended | .halted | .faulted => .next s

/-- R38, R42: one transaction of the host (log 3). -/
def hostStep (a : HostAction) (s : State) : Result :=
  match a with
  | .pass => coreStep s
  | .reset => .next s.hostReset
  | .load bytes => s.hostLoad bytes
  | .preload i v l => .next (s.hostPreload i v l)
  | .start => .next s.hostStart
  | .resume => .next s.hostResume
  | .setReady level => .next (s.hostSetReady level)
  | .accept => .next s.hostAccept

/-- One step of the whole machine: the host's next transaction, or the core's step when none is to come. -/
def cycle (s : State) : Result :=
  match s.inbox with
  | [] => coreStep s
  | a :: rest => hostStep a { s with inbox := rest }

/-- R281, R283: the four bytes of a slot stored at the current line, with the program long enough to hold them. -/
def State.withSlot (s : State) (b0 b1 b2 b3 : Byte) : State :=
  let a := s.fetchAddress
  { s with
    prog := ((((Memory.write s.prog a b0).write (a + 1) b1).write (a + 2) b2).write (a + 3) b3)
    progLen := max s.progLen (a + 4) }

/-- The state whose very next step runs the instruction of a slot word at the current line: the slot loaded, the core
RUNNING, no transaction and no event to wait for, and `pc` inside the program (log 12). -/
def State.placeSlotWord (s : State) (w : Nat) : State :=
  let t := s.withSlot (BitVec.ofNat 8 (w / 2 ^ 24)) (BitVec.ofNat 8 (w / 2 ^ 16)) (BitVec.ofNat 8 (w / 2 ^ 8)) (BitVec.ofNat 8 w)
  { t with
    pc := if t.progLen ≤ t.pc.toNat then 0 else t.pc
    runState := .running
    inbox := []
    stalled := none }

end Sys2Proof.Machine
end

