-- ==== Sys2Proof/Machine/Step.lean ====
section
/-! DEFINITION. The step of the machine (spec/40_execution.md R110), and the placing of an instruction where the step
fetches next. -/

namespace Sys2Proof.Machine

/-- One step: an instruction, a wait, or one transaction of the host. -/
def step (s : State) : Host.Outcome State Fault Refusal := cycle s

/-- The state with the slot word `w` (bits above `nbits` zero) where `step` fetches its next instruction (log 12). -/
def State.withFetchWord (s : State) (nbits w : Nat) : State := s.placeSlotWord (w % 2 ^ nbits)

end Sys2Proof.Machine
end

