-- ==== Sys2Proof/Safety.lean ====
section
/-! DEFINITION. The terms in which claims about runs are made: what a safe run is, the invariant of the machine
(spec/10_state.md R24 to R31), and the reading of an operand as a register. -/

namespace Sys2Proof.Machine

/-- R116 in the spec's own words: `b` names a register whose content is the index `i`. -/
abbrev State.PointsTo (s : State) (b : Byte) (i : Reg) : Prop := ∃ h : b.toNat < 32, (s.x ⟨b.toNat, h⟩).toInt = i.val

/-- R115: `b` is the index `i` itself. -/
abbrev Names (b : Byte) (i : Reg) : Prop := b.toNat = i.val

/-- R285: the run has ended. -/
abbrev State.Ended (s : State) : Prop := s.runState = .halted ∨ s.runState = .faulted

/-- A run is safe as long as no fatal fault has stopped it (R241). -/
abbrev State.Safe (s : State) : Prop := s.runState ≠ .faulted

/-- R40, R242: the fields an event can carry. -/
def Event.Legal (e : Event) : Prop :=
  e.line.toNat ≤ maxLine ∧
  match e.kind with
  | .print => e.code = 0 ∨ e.code = 1
  | .softError =>
    (e.code = 1 ∧ e.data.toNat < 32) ∨ (e.code = 2 ∧ e.data = 0) ∨ (e.code = 3 ∧ e.data.toNat < 256)

/-- Program memory as R36, R39 and R61 give it, in canonical form. -/
structure State.ProgramOk (s : State) : Prop where
  canonical : Memory.wf s.prog = true
  inside : ∀ c ∈ s.prog, c.1 < s.progLen
  bounded : s.progLen ≤ maxProgLen

/-- R27: the values the counters hold between steps. -/
structure State.CountersOk (s : State) : Prop where
  line_le : s.line.toNat ≤ maxLine
  idle_zero : s.runState = .idle → s.line = 0 ∧ s.pc = 0
  running_pc : s.runState = .running → s.stalled = none → s.pc.toNat = s.line.toNat * 4 ∨ s.pc = 0
  suspended_pc : s.runState = .suspended → s.pc.toNat = s.line.toNat * 4 + 1 ∧ s.line.toNat * 4 < s.progLen

/-- R24, R25, R26: the stack within its capacity, the sentinel of the label table, locations that are lines. -/
structure State.TablesOk (s : State) : Prop where
  capacity_pos : 1 ≤ s.config.stackDepth
  depth_le : s.stack.length ≤ s.config.stackDepth
  sentinel : s.labelAt 0 = { valid := true, loc := 0 }
  loc_le : ∀ k, (s.labelAt k).loc.toNat ≤ maxLine
  invalid_loc : ∀ k, (s.labelAt k).valid = false → (s.labelAt k).loc = 0

/-- R29, R30, R31, R243: what the status outputs say in each run state. -/
structure State.StatusOk (s : State) : Prop where
  not_halted : s.runState ≠ .halted → s.haltCause = .hlt ∧ s.exitCode = 0
  fault_iff : s.faultCause ≠ .none ↔ s.runState = .faulted
  not_faulted : s.runState ≠ .faulted → s.faultLine = 0 ∧ s.faultOffset = 0
  not_illegal : s.haltCause ≠ .illegal → s.illegalByte = 0
  illegal : s.haltCause = .illegal → isUnmapped s.illegalByte = true ∧ s.exitCode = 4
  clean : s.haltCause = .hlt ∨ s.haltCause = .ended → s.exitCode = 0

/-- R40, R250: the event trace, and an event to present while the core waits. -/
structure State.EventsOk (s : State) : Prop where
  legal : ∀ e ∈ s.events, e.Legal
  presented : s.stalled ≠ none → s.events ≠ []

/-- R250: what an instruction can have left to do when it waits for the acceptance of its event, in the state it waits in. -/
def State.MayLeave (s : State) (i : Instr) (r : Rest) : Prop :=
  match i with
  | .load _ _ | .add _ _ _ | .sub _ _ _ | .eq _ _ _ | .neq _ _ _ | .and _ _ _ | .or _ _ _ | .not _ _ | .vmcall _ _ _
  | .pushrts _ | .poprfs _ => r = .advance
  | .div _ _ _ => ∃ w, r = .setRem w .advance
  | .get _ _ => r = .advance ∨ r = .setRem 0 .advance
  | .swp p q => r = .advance ∨ ∃ i j, s.PointsTo p i ∧ s.PointsTo q j ∧ r = .write j (s.x i) .advance
  | .goto k => (s.labelAt k).valid = false ∧ r = .unresolvedGoto
  | .hlt | .jmp _ | .rjmp _ | .jeq _ _ | .jneq _ _ | .lockr _ | .brk | .label _ | .igl _ => False

/-- R250, R254, R288: a core that waits for an acceptance is RUNNING, inside the instruction of its line. -/
structure State.StallOk (s : State) : Prop where
  running : s.stalled ≠ none → s.runState = .running
  inside : ∀ r, s.stalled = some r →
    ∃ i, s.fetch = .ok i ∧ s.MayLeave i r ∧ s.pc.toNat = s.line.toNat * 4 + 1 + i.operandCount

/-- The invariant of the machine: what every step keeps. -/
structure State.Inv (s : State) : Prop where
  program : s.ProgramOk
  counters : s.CountersOk
  tables : s.TablesOk
  status : s.StatusOk
  events : s.EventsOk
  stall : s.StallOk

/-- R21: the registers whose content an instruction may write, in the state before it. -/
def State.MayWriteReg (s : State) (i : Instr) (r : Reg) : Prop :=
  match i with
  | .load d _ => Names d r
  | .add _ _ d | .sub _ _ d | .div _ _ d | .eq _ _ d | .neq _ _ d | .and _ _ d | .or _ _ d | .not _ d | .get _ d => s.PointsTo d r
  | .pushrts d | .poprfs d => s.PointsTo d r
  | .swp d e => s.PointsTo d r ∨ s.PointsTo e r
  | .hlt | .jmp _ | .rjmp _ | .vmcall _ _ _ | .jeq _ _ | .jneq _ _ | .lockr _ | .brk | .label _ | .goto _ | .igl _ => False

/-- R82: a register operand of an instruction: its byte and its addressing mode. -/
inductive RegOperand where
  | direct (b : Byte)
  | indirect (b : Byte)
  deriving DecidableEq, Repr

/-- R82: the register operands of an instruction, in byte order; GET's id is one only under GET_ID_MODE = indirect (R181). -/
def regOperands (m : GetIdMode) : Instr → List RegOperand
  | .load r _ => [.direct r]
  | .add p q d | .sub p q d | .div p q d | .vmcall p q d | .eq p q d | .neq p q d | .and p q d | .or p q d =>
    [.indirect p, .indirect q, .indirect d]
  | .jeq p q | .jneq p q | .swp p q | .not p q => [.indirect p, .indirect q]
  | .get k p => match m with
    | .literal => [.indirect p]
    | .indirect => [.indirect k, .indirect p]
  | .jmp p | .rjmp p | .lockr p | .pushrts p | .poprfs p => [.indirect p]
  | .hlt | .brk | .label _ | .goto _ | .igl _ => []

/-- R115, R116: an operand that resolves, in state `s`. -/
def State.Resolves (s : State) : RegOperand → Prop
  | .direct b => b.toNat < 32
  | .indirect b => ∃ i, s.PointsTo b i

/-- R115, R116: the fault of an operand that does not resolve. -/
def State.OperandFault (s : State) (o : RegOperand) (c : FaultCause) : Prop :=
  match o with
  | .direct b => 32 ≤ b.toNat ∧ c = .regIndexRange
  | .indirect b =>
    (32 ≤ b.toNat ∧ c = .regIndexRange) ∨
    (∃ h : b.toNat < 32, ((s.x ⟨b.toNat, h⟩).toInt < 0 ∨ 32 ≤ (s.x ⟨b.toNat, h⟩).toInt) ∧ c = .regPointerRange)

end Sys2Proof.Machine
end

