-- ==== Sys2Proof/Certificates/Slice0/Obligations.lean ====
section
/-! DEFINITION. The statements for the provers. `Claims` writes out, as plain record updates, the states that the rules of
spec/ give (R118 to R123, R250), apart from the model's own operations. -/

namespace Sys2Proof.Claims

open Sys2Proof.Machine

/-- R119. -/
def nextSlot (s : State) : State := { s with line := s.line + 1, pc := (s.line + 1) * 4 }

/-- R250: one event more in the trace. -/
def withEvent (s : State) (e : Event) : State := { s with events := s.events ++ [e] }

/-- R250: the event, then `after` at once if `ev_ready` is high; else the core waits inside the instruction, with `rest` left. -/
def afterEvent (s : State) (e : Event) (rest : Rest) (after : State → State) : State :=
  if s.evReady then after (withEvent s e) else { withEvent s e with stalled := some rest }

/-- R122, R242: a soft-error event of the instruction at `s.line`. -/
def softEvent (s : State) (code : BitVec 4) (data : Word) : Event :=
  { kind := .softError, code := code, line := s.line, data := data }

/-- R118: LOCKED_WRITE carries code 1 and the index of the locked register. -/
def lockedEvent (s : State) (k : Reg) : Event := softEvent s 1 (BitVec.ofNat 32 k.val)

/-- R118: the lock-checked write of `v` to register `k`, then `after`, which is `rest` where the write's event has to wait. -/
def afterWriteThen (s : State) (k : Reg) (v : Word) (rest : Rest) (after : State → State) : State :=
  if s.locked k then afterEvent s (lockedEvent s k) rest after else after { s with regs := s.regs.set k.val v k.isLt }

/-- R118, then R119: the lock-checked write of `v` to register `k`, and the next slot. -/
def afterWrite (s : State) (k : Reg) (v : Word) : State := afterWriteThen s k v .advance nextSlot

/-- R121. -/
def faultedWith (s : State) (c : FaultCause) : State :=
  { s with runState := .faulted, faultCause := c, faultLine := s.line, faultOffset := s.pc }

/-- R123. -/
def haltedWith (s : State) (c : HaltCause) (code : Word) : State :=
  { s with runState := .halted, haltCause := c, exitCode := code }

/-- R120, in range. -/
def branchedTo (s : State) (l : Word) : State := { s with line := l, pc := 0 }

/-- R206: `UnresolvedGoto()` under each policy. -/
def afterUnresolved (s : State) : State :=
  match s.config.unresolvedGoto with
  | .retry => { s with pc := s.line * 4 }
  | .fallThrough => nextSlot s
  | .fault => faultedWith s .gotoUnresolved

/-- R250, R124: what the rest of an instruction does after the acceptance. -/
def continued : Rest → State → State
  | .advance, s => nextSlot s
  | .unresolvedGoto, s => afterUnresolved s
  | .setRem v rest, s => continued rest { s with rem := v }
  | .write k v rest, s => afterWriteThen s k v rest (continued rest)

/-- The coming step is an instruction's: the core is RUNNING, no event waits, the host does nothing. -/
abbrev CoreActs (s : State) : Prop := s.inbox = [] ∧ s.stalled = none ∧ s.runState = .running

/-- R112: `fa`. -/
def fetchAt (s : State) : Nat := s.line.toNat * 4

/-- R80: the four bytes of the slot at `fa`. -/
def slotAt (s : State) : List Byte :=
  [s.progByte (fetchAt s), s.progByte (fetchAt s + 1), s.progByte (fetchAt s + 2), s.progByte (fetchAt s + 3)]

/-- R43, the whole table. -/
structure HasResetValues (t : State) : Prop where
  regs : ∀ i, t.x i = 0 ∧ t.locked i = false
  rem : t.rem = 0
  stack : t.stack = [0]
  sentinel : t.labelAt 0 = { valid := true, loc := 0 }
  labels : ∀ k, k ≠ 0 → t.labelAt k = { valid := false, loc := 0 }
  counters : t.line = 0 ∧ t.pc = 0
  state : t.runState = .idle
  status : t.status = 0 ∧ t.exitCode = 0 ∧ t.faultLine = 0 ∧ t.faultOffset = 0
  program : t.progLen = 0 ∧ ∀ a, t.progByte a = 0
  port : t.evPort = none
  outputs : t.lineOut = some 0 ∧ t.pcOut = some 0 ∧ t.usageCount = 0
  debug : ∀ a, t.dbgRead a = some (0, false)

/-- R26: the source's table, a sequence of (id, line) entries, and its first match. -/
def firstMatch (es : List (Byte × Word)) (k : Byte) : Option Word := (es.find? fun e => e.1 == k).map fun e => e.2

/-- R205: what GOTO finds for an id in the model's table. -/
def boundLine (s : State) (k : Byte) : Option Word := if (s.labelAt k).valid then some (s.labelAt k).loc else none

/-- R26, R204: the entries an instruction appends to the source's sequence. -/
def appended (i : Instr) (l : Word) : List (Byte × Word) :=
  match i with
  | .label k => [(k, l)]
  | .hlt | .load _ _ | .add _ _ _ | .sub _ _ _ | .div _ _ _ | .jmp _ | .rjmp _ | .vmcall _ _ _ | .eq _ _ _ | .jeq _ _
  | .neq _ _ _ | .jneq _ _ | .swp _ _ | .and _ _ _ | .or _ _ _ | .not _ _ | .get _ _ | .lockr _ | .pushrts _ | .poprfs _
  | .brk | .goto _ | .igl _ => []

end Sys2Proof.Claims

open Sys2Proof Sys2Proof.Machine Sys2Proof.Claims

/-! ### Encoding -/

/-- R80, R81, R84, R87: decoding the opcode and operand bytes of a well-formed instruction, whatever follows them, gives
that instruction; so does decoding its encoding. -/
def Obligations.DecodeEncodeAgree : Prop :=
  ∀ (i : Instr) (padding : List Byte), i.WellFormed →
    decode (i.opcode :: (i.operandBytes ++ padding)) = .ok i ∧ decode (encode i) = .ok i

/-- R84, R85, R89: every slot of four bytes decodes, to one well-formed instruction with the slot's opcode byte and its
first operand bytes, and encoding it gives the slot back with its padding zeroed. -/
def Obligations.EverySlotDecodes : Prop :=
  ∀ b0 b1 b2 b3 : Byte, ∃ i : Instr,
    decode [b0, b1, b2, b3] = .ok i ∧ i.WellFormed ∧ i.opcode = b0 ∧
    encode i = b0 :: ([b1, b2, b3].take i.operandCount ++ List.replicate (3 - i.operandCount) 0)

/-- Words written out from R81 and R84 and the spec's examples, read by the decoder (a sanity statement). -/
def Obligations.SampleWordsDecode : Prop :=
  decodeTableWord 32 0x010001F4 = some (.load 0 500) ∧ decodeTableWord 32 0x02020304 = some (.add 2 3 4) ∧
  decodeTableWord 32 0x11000B00 = some (.get 0 11) ∧ decodeTableWord 32 0x0A0E0F00 = some (.jeq 14 15) ∧
  decodeTableWord 32 0x130C0000 = some (.pushrts 12) ∧ decodeTableWord 32 0x15000000 = some .brk ∧
  decodeTableWord 32 0x17030000 = some (.goto 3) ∧ decodeTableWord 32 0x07010203 = some (.igl 7)

/-! ### The cycle -/

/-- R110, R112 to R114: when the slot at `line * 4` decodes to an instruction whose bytes lie inside the program, the step
is that instruction, executed with `pc = fa + 1 + n`. -/
def Obligations.StepRunsDecodedInstruction : Prop :=
  ∀ (s : State) (i : Instr), CoreActs s → s.pc.toNat < s.progLen → decode (slotAt s) = .ok i →
    fetchAt s + i.operandCount < s.progLen →
    step s = exec i { s with pc := BitVec.ofNat 32 (fetchAt s + 1 + i.operandCount) }

/-- R111. -/
def Obligations.EndOfProgramHalts : Prop :=
  ∀ s : State, CoreActs s → s.progLen ≤ s.pc.toNat → step s = .next (haltedWith s .ended 0)

/-- R112: a line at or beyond the end. -/
def Obligations.FetchBeyondEndFaults : Prop :=
  ∀ s : State, CoreActs s → s.pc.toNat < s.progLen → s.progLen ≤ fetchAt s →
    step s = .next (faultedWith { s with pc := BitVec.ofNat 32 (fetchAt s) } .programOverrun)

/-- R114: the opcode is inside the program and an operand byte is not: the fault is at the first byte beyond the end. -/
def Obligations.TruncatedSlotFaults : Prop :=
  ∀ (s : State) (i : Instr), CoreActs s → s.pc.toNat < s.progLen → fetchAt s < s.progLen → i.WellFormed →
    i.opcode = s.progByte (fetchAt s) → s.progLen ≤ fetchAt s + i.operandCount →
    step s = .next (faultedWith { s with pc := BitVec.ofNat 32 s.progLen } .programOverrun)

/-- R226, R85, R112: a slot whose first byte has no mapping halts with ILLEGAL, exit code 4 and the byte recorded. -/
def Obligations.UnmappedByteHaltsIllegal : Prop :=
  ∀ s : State, CoreActs s → s.pc.toNat < s.progLen → fetchAt s < s.progLen →
    (s.progByte (fetchAt s) = 7 ∨ 24 ≤ (s.progByte (fetchAt s)).toNat) →
    step s = .next
      { haltedWith s .illegal 4 with
        illegalByte := s.progByte (fetchAt s), pc := BitVec.ofNat 32 (fetchAt s + 1) }

/-- R64, R87: the bytes of program memory other than the opcode and operand bytes of the current slot have no effect on
the step. -/
def Obligations.OtherProgramBytesHaveNoEffect : Prop :=
  ∀ (s t : State) (i : Instr) (m : Memory), CoreActs s → s.fetch = .ok i →
    (∀ k, k ≤ i.operandCount → Memory.read m (fetchAt s + k) = s.progByte (fetchAt s + k)) →
    step s = .next t → step { s with prog := m } = .next { t with prog := m }

/-- R250, R254, R288: a core that waits inside an instruction with `ev_ready` low, or is not RUNNING, holds all its state,
for any number of steps. That such a step is a step is the model's reading (log 2). -/
def Obligations.WaitingCoreHoldsItsState : Prop :=
  ∀ (n : Nat) (s : State), s.inbox = [] →
    ((s.runState = .running ∧ s.stalled ≠ none ∧ s.evReady = false) ∨ s.runState ≠ .running) →
    Sys2Proof.core.run n s = .next s

/-- The model's schedule (log 3): a step in which the host does nothing is the core's step, whatever is to come. -/
def Obligations.PassIsTheCoresStep : Prop :=
  ∀ (s t : State) (rest : List HostAction), s.inbox = .pass :: rest → step { s with inbox := [] } = .next t →
    step s = .next { t with inbox := rest }

/-! ### The machine as a whole -/

/-- The invariant at reset (R43). -/
def Obligations.ResetMeetsInvariant : Prop := State.reset.Inv

/-- R24 to R31, R36, R40: every step, of the core or of the host, keeps the invariant. -/
def Obligations.StepKeepsInvariant : Prop := ∀ s t : State, s.Inv → step s = .next t → t.Inv

/-- R28: the run state changes in these ways and no other. -/
def Obligations.RunStateTransitions : Prop :=
  ∀ s t : State, step s = .next t → t.runState ≠ s.runState →
    (s.inbox.head? = some .reset ∧ t.runState = .idle) ∨
    (s.inbox.head? = some .start ∧ s.runState = .idle ∧ t.runState = .running) ∨
    (s.inbox.head? = some .resume ∧ s.runState = .suspended ∧ t.runState = .running) ∨
    (s.runState = .running ∧ t.runState = .suspended ∧ s.fetch = .ok .brk) ∨
    (s.runState = .running ∧ t.runState = .halted) ∨
    (s.runState = .running ∧ t.runState = .faulted)

/-- R247, R254: an ended run stays as it is, whatever the host does short of reset, for any number of steps. -/
def Obligations.EndedRunNeverChanges : Prop :=
  ∀ (n : Nat) (s : State), s.Ended → HostAction.reset ∉ s.inbox →
    ∃ t, Sys2Proof.core.run n s = .next t ∧ t.runState = s.runState ∧ t.regs = s.regs ∧ t.locks = s.locks ∧
      t.rem = s.rem ∧ t.stack = s.stack ∧ t.labels = s.labels ∧ t.line = s.line ∧ t.pc = s.pc ∧ t.status = s.status ∧
      t.exitCode = s.exitCode ∧ t.faultLine = s.faultLine ∧ t.faultOffset = s.faultOffset ∧ t.events = s.events ∧
      t.prog = s.prog ∧ t.progLen = s.progLen

/-- R61, R71, R281: program memory changes only by a load while IDLE and by reset; the parameters (R7) never change. -/
def Obligations.ProgramIsConstantDuringRun : Prop :=
  ∀ s t : State, step s = .next t → t.config = s.config ∧
    (s.inbox.head? ≠ some .reset → s.runState ≠ .idle → t.prog = s.prog ∧ t.progLen = s.progLen)

/-- Every instruction answers a next state in every state: none is refused, and its faults are next states (log 1). -/
def Obligations.EveryInstructionAnswersNext : Prop := ∀ (i : Instr) (s : State), ∃ t, exec i s = .next t

/-- R115 to R117, R124: the first register operand, in byte order, that does not resolve gives its fault, and nothing else
happens. -/
def Obligations.OperandFaultsInByteOrder : Prop :=
  ∀ (i : Instr) (s : State) (before after : List RegOperand) (o : RegOperand) (c : FaultCause),
    regOperands s.config.getIdMode i = before ++ o :: after → (∀ o' ∈ before, s.Resolves o') → s.OperandFault o c →
    exec i s = .next (faultedWith s c)

/-- R121, R206: an instruction that faults changes nothing but the record of the fault; only an unresolved GOTO under
UNRESOLVED_GOTO = fault has emitted its event first, which the host has accepted (R250). -/
def Obligations.FaultsArePrecise : Prop :=
  ∀ (i : Instr) (s t : State), exec i s = .next t → s.runState ≠ .faulted → t.runState = .faulted →
    (∃ c, c ≠ .none ∧ t = faultedWith s c) ∨
    (∃ k, i = .goto k ∧ s.config.unresolvedGoto = .fault ∧ s.evReady = true ∧
      t = faultedWith (withEvent s (softEvent s 3 (BitVec.ofNat 32 k.toNat))) .gotoUnresolved)

/-- R119, R125: an instruction that neither branches, stops, suspends, waits nor retries ends at the next slot; a branching
one that leaves its slot has `pc = 0`; one that waits for its event's acceptance is still in its slot. -/
def Obligations.SlotInvariant : Prop :=
  ∀ (i : Instr) (s t : State), exec i s = .next t → s.runState = .running → s.stalled = none → t.runState = .running →
    (t.stalled ≠ none → t.line = s.line ∧ t.pc = s.pc) ∧
    (t.stalled = none →
      match i with
      | .jmp _ | .rjmp _ => t.pc = 0
      | .jeq _ _ | .jneq _ _ => t.pc = 0 ∨ (t.line = s.line + 1 ∧ t.pc = t.line * 4)
      | .goto k =>
        ((s.labelAt k).valid = true → t.line = (s.labelAt k).loc ∧ t.pc = 0) ∧
        ((s.labelAt k).valid = false → (t.line = s.line ∨ t.line = s.line + 1) ∧ t.pc = t.line * 4)
      | .load _ _ | .add _ _ _ | .sub _ _ _ | .div _ _ _ | .vmcall _ _ _ | .eq _ _ _ | .neq _ _ _ | .swp _ _ | .and _ _ _
      | .or _ _ _ | .not _ _ | .get _ _ | .lockr _ | .pushrts _ | .poprfs _ | .label _ | .hlt | .brk | .igl _ =>
        t.line = s.line + 1 ∧ t.pc = t.line * 4)

/-- R206, R288: under retry, a GOTO of an unbound label runs forever, one UNRESOLVED_LABEL event a step. -/
def Obligations.UnresolvedGotoNeverEnds : Prop :=
  ∀ (n : Nat) (s : State) (k : Byte), CoreActs s → s.evReady = true → s.config.unresolvedGoto = .retry →
    s.pc.toNat < s.progLen → fetchAt s + 1 < s.progLen → s.progByte (fetchAt s) = 0x17 →
    s.progByte (fetchAt s + 1) = k → (s.labelAt k).valid = false →
    Sys2Proof.core.run (n + 1) s = .next
      { s with
        pc := s.line * 4
        events := s.events ++ List.replicate (n + 1) (softEvent s 3 (BitVec.ofNat 32 k.toNat)) }

/-- R26: keeping only the first entry of each id gives every GOTO the answer of the source's sequence of entries, from reset
on and through every instruction. -/
def Obligations.LabelTableRefinesSequence : Prop :=
  (∀ k, boundLine State.reset k = firstMatch [(0, 0)] k) ∧
  ∀ (i : Instr) (s t : State) (es : List (Byte × Word)), exec i s = .next t → (∀ k, boundLine s k = firstMatch es k) →
    ∀ k, boundLine t k = firstMatch (es ++ appended i s.line) k

/-! ### Results: load and arithmetic -/

/-- R140, R83: LOAD writes its zero-extended immediate to the register its byte names. -/
def Obligations.LoadWritesImmediate : Prop :=
  ∀ (r : Byte) (imm : BitVec 16) (s : State) (k : Reg), Names r k →
    exec (.load r imm) s = .next (afterWrite s k (BitVec.ofNat 32 imm.toNat))

/-- R141, R142: ADD and SUB write the exact result when some 32-bit content has that value. -/
def Obligations.AddSubWriteExactResult : Prop :=
  ∀ (p q d : Byte) (s : State) (i j k : Reg) (w : Word), s.PointsTo p i → s.PointsTo q j → s.PointsTo d k →
    (w.toInt = (s.x i).toInt + (s.x j).toInt → exec (.add p q d) s = .next (afterWrite s k w)) ∧
    (w.toInt = (s.x i).toInt - (s.x j).toInt → exec (.sub p q d) s = .next (afterWrite s k w))

/-- R144: outside `i32`, fault mode raises ARITH_OVERFLOW, wrap mode writes the content congruent modulo 2^32. -/
def Obligations.AddSubOverflow : Prop :=
  ∀ (p q d : Byte) (s : State) (i j k : Reg), s.PointsTo p i → s.PointsTo q j → s.PointsTo d k →
    (¬ InI32 ((s.x i).toInt + (s.x j).toInt) →
      (s.config.overflowMode = .fault → exec (.add p q d) s = .next (faultedWith s .arithOverflow)) ∧
      (s.config.overflowMode = .wrap → ∀ w : Word, (2 ^ 32 : Int) ∣ (s.x i).toInt + (s.x j).toInt - w.toInt →
        exec (.add p q d) s = .next (afterWrite s k w))) ∧
    (¬ InI32 ((s.x i).toInt - (s.x j).toInt) →
      (s.config.overflowMode = .fault → exec (.sub p q d) s = .next (faultedWith s .arithOverflow)) ∧
      (s.config.overflowMode = .wrap → ∀ w : Word, (2 ^ 32 : Int) ∣ (s.x i).toInt - (s.x j).toInt - w.toInt →
        exec (.sub p q d) s = .next (afterWrite s k w)))

/-- R143, R145: DIV writes the quotient truncated toward zero and sets `rem` to the remainder with the dividend's sign;
the four facts about `qt` and `rm` determine both. -/
def Obligations.DivTruncates : Prop :=
  ∀ (p q d : Byte) (s : State) (i j k : Reg), s.PointsTo p i → s.PointsTo q j → s.PointsTo d k → (s.x j).toInt ≠ 0 →
    ¬ ((s.x i).toInt = intMin ∧ (s.x j).toInt = -1) →
    ∃ qt rm : Word, (s.x i).toInt = (s.x j).toInt * qt.toInt + rm.toInt ∧ |rm.toInt| < |(s.x j).toInt| ∧
      (rm.toInt < 0 → (s.x i).toInt < 0) ∧ (0 < rm.toInt → 0 < (s.x i).toInt) ∧
      exec (.div p q d) s = .next (afterWriteThen s k qt (.setRem rm .advance) fun u => nextSlot { u with rem := rm })

/-- R143: divisor 0, then INT_MIN / -1. -/
def Obligations.DivFaults : Prop :=
  ∀ (p q d : Byte) (s : State) (i j k : Reg), s.PointsTo p i → s.PointsTo q j → s.PointsTo d k →
    ((s.x j).toInt = 0 → exec (.div p q d) s = .next (faultedWith s .divZero)) ∧
    ((s.x i).toInt = intMin ∧ (s.x j).toInt = -1 → exec (.div p q d) s = .next (faultedWith s .divOverflow))

/-! ### Results: comparison and boolean -/

/-- R160, R161. -/
def Obligations.EqNeqWriteTruthValue : Prop :=
  ∀ (p q d : Byte) (s : State) (i j k : Reg), s.PointsTo p i → s.PointsTo q j → s.PointsTo d k →
    exec (.eq p q d) s = .next (afterWrite s k (if (s.x i).toInt = (s.x j).toInt then 1 else 0)) ∧
    exec (.neq p q d) s = .next (afterWrite s k (if (s.x i).toInt = (s.x j).toInt then 0 else 1))

/-- R163, R164, R165: the truth tables over {0,1}; the destinations hold anything. -/
def Obligations.BooleanTruthTables : Prop :=
  ∀ (p q d : Byte) (s : State) (i j k : Reg) (a b : Bool), s.PointsTo p i → s.PointsTo q j → s.x i = (if a then 1 else 0) →
    (s.PointsTo d k → s.x j = (if b then 1 else 0) →
      exec (.and p q d) s = .next (afterWrite s k (if a && b then 1 else 0)) ∧
      exec (.or p q d) s = .next (afterWrite s k (if a || b then 1 else 0))) ∧
    exec (.not p q) s = .next (afterWrite s j (if a then 0 else 1))

/-- R162: a source outside {0,1}: no write, one BOOL_DOMAIN event with data 0, and the next slot. -/
def Obligations.BooleanDomainSoftError : Prop :=
  ∀ (p q d : Byte) (s : State) (i j k : Reg), s.PointsTo p i → s.PointsTo q j → s.PointsTo d k →
    ((s.x i).toInt ≠ 0 ∧ (s.x i).toInt ≠ 1 ∨ (s.x j).toInt ≠ 0 ∧ (s.x j).toInt ≠ 1 →
      exec (.and p q d) s = .next (afterEvent s (softEvent s 2 0) .advance nextSlot) ∧
      exec (.or p q d) s = .next (afterEvent s (softEvent s 2 0) .advance nextSlot)) ∧
    ((s.x i).toInt ≠ 0 ∧ (s.x i).toInt ≠ 1 →
      exec (.not p q) s = .next (afterEvent s (softEvent s 2 0) .advance nextSlot))

/-! ### Results: register exchange, hidden register, locks -/

/-- R180: SWP is two lock-checked writes of values read before both, with every combination of locks and with i = j; and what
it leaves when its events are accepted at once: all but the counters and the trace is unchanged. -/
def Obligations.SwpExchanges : Prop :=
  ∀ (p q : Byte) (s : State) (i j : Reg), s.PointsTo p i → s.PointsTo q j →
    exec (.swp p q) s = .next
      (afterWriteThen s i (s.x j) (.write j (s.x i) .advance) fun u => afterWrite u j (s.x i)) ∧
    (s.evReady = true → ∃ t, exec (.swp p q) s = .next t ∧
      t.x i = (if s.locked i then s.x i else s.x j) ∧ t.x j = (if s.locked j then s.x j else s.x i) ∧
      (∀ r, r ≠ i → r ≠ j → t.x r = s.x r) ∧
      t.events = s.events ++ ((if s.locked i then [lockedEvent s i] else []) ++ (if s.locked j then [lockedEvent s j] else [])) ∧
      t = { nextSlot s with regs := t.regs, events := t.events })

/-- R181: GET reads `rem` and clears it for id 0, gives 0 for any other id; the id is the byte itself or `x[Ptr(B1)]`. -/
def Obligations.GetReadsHiddenRegister : Prop :=
  ∀ (k p : Byte) (s : State) (d : Reg), s.PointsTo p d →
    (s.config.getIdMode = .literal →
      (k = 0 → exec (.get k p) s = .next (afterWriteThen s d s.rem (.setRem 0 .advance) fun u => nextSlot { u with rem := 0 })) ∧
      (k ≠ 0 → exec (.get k p) s = .next (afterWrite s d 0))) ∧
    (s.config.getIdMode = .indirect → ∀ i, s.PointsTo k i →
      ((s.x i).toInt = 0 → exec (.get k p) s = .next (afterWriteThen s d s.rem (.setRem 0 .advance) fun u => nextSlot { u with rem := 0 })) ∧
      ((s.x i).toInt ≠ 0 → exec (.get k p) s = .next (afterWrite s d 0)))

/-- R182: LOCKR toggles the lock flag of its target, locked or not, and does nothing else. -/
def Obligations.LockrToggles : Prop :=
  ∀ (p : Byte) (s : State) (r : Reg), s.PointsTo p r →
    ∃ t, exec (.lockr p) s = .next t ∧ t.locked r = (!s.locked r) ∧ (∀ r', r' ≠ r → t.locked r' = s.locked r') ∧
      t = { nextSlot s with locks := t.locks }

/-! ### Results: stack -/

/-- R190: the push, then the lock-checked clearing; a full stack faults. -/
def Obligations.PushrtsPushesAndClears : Prop :=
  ∀ (p : Byte) (s : State) (r : Reg), s.PointsTo p r →
    (s.stack.length < s.config.stackDepth →
      exec (.pushrts p) s = .next (afterWrite { s with stack := s.stack ++ [s.x r] } r 0)) ∧
    (s.stack.length = s.config.stackDepth → exec (.pushrts p) s = .next (faultedWith s .stackOverflow))

/-- R191: the pop, then the lock-checked write; an empty stack faults. -/
def Obligations.PoprfsPops : Prop :=
  ∀ (p : Byte) (s : State) (r : Reg), s.PointsTo p r →
    (∀ st v, s.stack = st ++ [v] → exec (.poprfs p) s = .next (afterWrite { s with stack := st } r v)) ∧
    (s.stack = [] → exec (.poprfs p) s = .next (faultedWith s .stackUnderflow))

/-- R192. -/
def Obligations.StackRoundTrip : Prop :=
  ∀ (p : Byte) (s : State) (r : Reg), s.PointsTo p r → p.toNat ≠ r.val → s.locked r = false →
    s.stack.length < s.config.stackDepth →
    ∃ t, exec (.pushrts p) s = .next t ∧ t.x r = 0 ∧ t.PointsTo p r ∧ t.locked r = false ∧
      ∀ t' : State, t'.stack = t.stack → t'.PointsTo p r → t'.locked r = false →
        ∃ u, exec (.poprfs p) t' = .next u ∧ u.x r = s.x r ∧ u.stack = s.stack

/-! ### Results: control -/

/-- R200, R201, R120: JMP and RJMP land on their line when it is 0 to 2^31 - 1, and raise BRANCH_RANGE otherwise; RJMP
counts from its own line. -/
def Obligations.JumpsLandOnLine : Prop :=
  ∀ (p : Byte) (s : State) (i : Reg), s.PointsTo p i →
    (∀ l : Word, l.toNat ≤ maxLine → (s.x i).toInt = l.toNat → exec (.jmp p) s = .next (branchedTo s l)) ∧
    ((s.x i).toInt < 0 → exec (.jmp p) s = .next (faultedWith s .branchRange)) ∧
    (∀ l : Word, l.toNat ≤ maxLine → s.line.toNat + (s.x i).toInt = l.toNat → exec (.rjmp p) s = .next (branchedTo s l)) ∧
    (s.line.toNat + (s.x i).toInt < 0 ∨ (maxLine : Int) < s.line.toNat + (s.x i).toInt →
      exec (.rjmp p) s = .next (faultedWith s .branchRange))

/-- R202, R203, R120: JEQ branches on 1 and JNEQ on 0; every other value falls through, whatever the target holds. -/
def Obligations.ConditionalBranches : Prop :=
  ∀ (p q : Byte) (s : State) (i j : Reg), s.PointsTo p i → s.PointsTo q j →
    ((s.x i).toInt ≠ 1 → exec (.jeq p q) s = .next (nextSlot s)) ∧
    ((s.x i).toInt ≠ 0 → exec (.jneq p q) s = .next (nextSlot s)) ∧
    (∀ l : Word, (s.x j).toInt = l.toNat →
      ((s.x i).toInt = 1 → exec (.jeq p q) s = .next (branchedTo s l)) ∧
      ((s.x i).toInt = 0 → exec (.jneq p q) s = .next (branchedTo s l))) ∧
    ((s.x j).toInt < 0 →
      ((s.x i).toInt = 1 → exec (.jeq p q) s = .next (faultedWith s .branchRange)) ∧
      ((s.x i).toInt = 0 → exec (.jneq p q) s = .next (faultedWith s .branchRange)))

/-- R204: LABEL binds an unbound id to its own line; a bound id keeps its line. -/
def Obligations.LabelBindsFirst : Prop :=
  ∀ (k : Byte) (s : State), ∃ t, exec (.label k) s = .next t ∧
    t.labelAt k = (if (s.labelAt k).valid then s.labelAt k else { valid := true, loc := s.line }) ∧
    (∀ k', k' ≠ k → t.labelAt k' = s.labelAt k') ∧ t = { nextSlot s with labels := t.labels }

/-- R205: GOTO of a bound id goes to its line. The bound on the line holds in every state of a run (`State.TablesOk`). -/
def Obligations.GotoGoesToBoundLine : Prop :=
  ∀ (k : Byte) (s : State), (s.labelAt k).valid = true → (s.labelAt k).loc.toNat ≤ maxLine →
    exec (.goto k) s = .next (branchedTo s (s.labelAt k).loc)

/-- R205, R206: GOTO of an unbound id emits UNRESOLVED_LABEL with the id, then retries, falls through or faults. -/
def Obligations.UnboundGotoPolicies : Prop :=
  ∀ (k : Byte) (s : State), (s.labelAt k).valid = false →
    let e := softEvent s 3 (BitVec.ofNat 32 k.toNat)
    (s.config.unresolvedGoto = .retry →
      exec (.goto k) s = .next (afterEvent s e .unresolvedGoto fun u => { u with pc := u.line * 4 })) ∧
    (s.config.unresolvedGoto = .fallThrough → exec (.goto k) s = .next (afterEvent s e .unresolvedGoto nextSlot)) ∧
    (s.config.unresolvedGoto = .fault →
      exec (.goto k) s = .next (afterEvent s e .unresolvedGoto fun u => faultedWith u .gotoUnresolved))

/-! ### Results: system -/

/-- R220 to R223: the three names of VMCALL. -/
def Obligations.VmcallPrintsExitsOrFaults : Prop :=
  ∀ (p q r : Byte) (s : State) (i j k : Reg), s.PointsTo p i → s.PointsTo q j → s.PointsTo r k →
    ((s.x i).toInt = 0 → exec (.vmcall p q r) s = .next (afterEvent s
      { kind := .print, code := if (s.x j).toInt = 0 then 0 else 1, line := s.line, data := s.x k } .advance nextSlot)) ∧
    ((s.x i).toInt = 1 → exec (.vmcall p q r) s = .next (haltedWith s .exit (s.x k))) ∧
    ((s.x i).toInt ≠ 0 ∧ (s.x i).toInt ≠ 1 → exec (.vmcall p q r) s = .next (faultedWith s .badHostcall))

/-- R224, R41: BREAK suspends with nothing else changed; the host's resume then goes on at the next slot, as after a no-op,
and has no effect in any other run state. -/
def Obligations.BreakSuspendsUntilResume : Prop :=
  ∀ (s : State) (rest : List HostAction),
    (s.runState = .running →
      exec .brk s = .next { s with runState := .suspended } ∧
      step { s with runState := .suspended, inbox := .resume :: rest } = .next { nextSlot s with inbox := rest }) ∧
    (s.runState ≠ .suspended → step { s with inbox := .resume :: rest } = .next { s with inbox := rest })

/-- R225, R226: HLT and IGL halt; the counters stay. -/
def Obligations.HltAndIglHalt : Prop :=
  ∀ s : State, exec .hlt s = .next (haltedWith s .hlt 0) ∧
    ∀ op : Byte, (Instr.igl op).WellFormed → exec (.igl op) s = .next { haltedWith s .illegal 4 with illegalByte := op }

/-! ### Frames -/

/-- R21, R23, R24, R25, R33: of the program-visible state, an instruction changes only the registers it may write, LOCKR the
lock flags, DIV and GET `rem`, PUSHRTS and POPRFS the stack, LABEL the label table. -/
def Obligations.InstructionFrame : Prop :=
  ∀ (i : Instr) (s t : State), exec i s = .next t →
    (∀ r, ¬ s.MayWriteReg i r → t.x r = s.x r) ∧
    ((∀ p, i ≠ .lockr p) → t.locks = s.locks) ∧
    ((∀ p q d, i ≠ .div p q d) → (∀ k p, i ≠ .get k p) → t.rem = s.rem) ∧
    ((∀ p, i ≠ .pushrts p) → (∀ p, i ≠ .poprfs p) → t.stack = s.stack) ∧
    ((∀ k, i ≠ .label k) → t.labels = s.labels)

/-- R60, R61, R29 to R31, R7: no instruction changes a byte of program memory, its length, the parameters or the host's
lines, and each status record changes only when the run stops for its cause. -/
def Obligations.MemoryAndStatusFrame : Prop :=
  ∀ (i : Instr) (s t : State), exec i s = .next t →
    (∀ a, t.progByte a = s.progByte a) ∧ t.progLen = s.progLen ∧ t.config = s.config ∧ t.inbox = s.inbox ∧
    t.evReady = s.evReady ∧
    (t.runState ≠ .halted → t.haltCause = s.haltCause ∧ t.exitCode = s.exitCode) ∧
    ((∀ op, i ≠ .igl op) → t.illegalByte = s.illegalByte) ∧
    (t.runState ≠ .faulted → t.faultCause = s.faultCause ∧ t.faultLine = s.faultLine ∧ t.faultOffset = s.faultOffset)

/-- R40, R242, R245, R250: an instruction emits at most two events, at its own line; prints come from VMCALL, LOCKED_WRITE
from a write to a locked register, BOOL_DOMAIN from AND, OR, NOT, UNRESOLVED_LABEL from GOTO. With `ev_ready` low it waits
at its first event. -/
def Obligations.EventsOfAnInstruction : Prop :=
  ∀ (i : Instr) (s t : State), exec i s = .next t →
    ∃ es, t.events = s.events ++ es ∧ es.length ≤ 2 ∧
      (s.evReady = true ∨ es = [] → t.stalled = s.stalled) ∧
      (s.evReady = false → es ≠ [] → es.length = 1 ∧ ∃ r, t.stalled = some r ∧ t.MayLeave i r) ∧
      ∀ e ∈ es, e.line = s.line ∧
        match e.kind with
        | .print => ∃ p q r, i = .vmcall p q r
        | .softError =>
          (∃ r, s.MayWriteReg i r ∧ s.locked r = true ∧ e = lockedEvent s r) ∨
          (e = softEvent s 2 0 ∧ ((∃ p q d, i = .and p q d) ∨ (∃ p q d, i = .or p q d) ∨ ∃ p d, i = .not p d)) ∨
          (∃ k, i = .goto k ∧ e = softEvent s 3 (BitVec.ofNat 32 k.toNat))

/-- R22, R118: neither an instruction nor a whole step, but reset and a preload of it, changes a locked register; an
instruction that runs to its end reports the attempt (unless it reported BOOL_DOMAIN and attempted no write). -/
def Obligations.LockedRegisterKeepsContent : Prop :=
  ∀ (s t : State) (r : Reg), s.locked r = true →
    (∀ i, exec i s = .next t → t.x r = s.x r ∧
      (s.MayWriteReg i r → s.evReady = true → s.runState ≠ .faulted → t.runState ≠ .faulted →
        ∃ es, t.events = s.events ++ es ∧ (lockedEvent s r ∈ es ∨ softEvent s 2 0 ∈ es))) ∧
    (step s = .next t → s.inbox.head? ≠ some .reset → (∀ v l, s.inbox.head? ≠ some (.preload r v l)) → t.x r = s.x r)

/-- R22, R23, over whole steps: a lock flag changes only by LOCKR, by a preload while IDLE and by reset; `rem` only by DIV,
GET and reset (`Inv` rules out a core that waits inside no instruction). -/
def Obligations.LocksAndRemChangeOnlySo : Prop :=
  ∀ s t : State, step s = .next t → s.inbox.head? ≠ some .reset →
    (∀ r, t.locked r ≠ s.locked r →
      (s.runState = .idle ∧ ∃ v l, s.inbox.head? = some (.preload r v l)) ∨
      (s.runState = .running ∧ ∃ p, s.fetch = .ok (.lockr p))) ∧
    (s.Inv → t.rem ≠ s.rem → s.runState = .running ∧
      ((∃ p q d, s.fetch = .ok (.div p q d)) ∨ ∃ k p, s.fetch = .ok (.get k p)))

/-- R25, R26: once bound, a label keeps its line until reset. -/
def Obligations.BoundLabelsPersist : Prop :=
  ∀ (s t : State) (k : Byte), step s = .next t → s.inbox.head? ≠ some .reset → (s.labelAt k).valid = true →
    t.labelAt k = s.labelAt k

/-! ### The host and the ports -/

/-- R43, R280: the reset state, and reset from any state. That every address of the empty program memory reads 0 is the
model's choice (log 8), and so is that the schedule of the host stays (log 3, log 11). -/
def Obligations.ResetFromAnyState : Prop :=
  HasResetValues State.reset ∧
  ∀ (s : State) (rest : List HostAction), s.inbox = .reset :: rest → ∃ t, step s = .next t ∧ HasResetValues t ∧ t.inbox = rest

/-- R281, R39, and U19 of 93_implementation_defined.md: a load while IDLE sets the program, its length and nothing else; a
program longer than 2^31 bytes is refused; outside IDLE nothing changes. -/
def Obligations.ProgramLoad : Prop :=
  ∀ (s : State) (bytes : List Byte) (rest : List HostAction), s.inbox = .load bytes :: rest →
    (s.runState = .idle → bytes.length ≤ maxProgLen →
      ∃ t, step s = .next t ∧ t.progLen = bytes.length ∧ Memory.wf t.prog = true ∧
        (∀ a (h : a < bytes.length), t.progByte a = bytes[a]) ∧
        t = { s with prog := t.prog, progLen := t.progLen, inbox := rest }) ∧
    (s.runState = .idle → maxProgLen < bytes.length → step s = .refused .programTooLong) ∧
    (s.runState ≠ .idle → step s = .next { s with inbox := rest })

/-- R282, R283, R42: preload and start while IDLE, without the lock check and without an event; no effect elsewhere. The
counters of an IDLE core are 0 (`Inv` rules out states no run reaches), so a run starts at line 0, byte 0. -/
def Obligations.PreloadAndStart : Prop :=
  ∀ (s : State) (rest : List HostAction) (i : Reg) (v : Word) (l : Bool),
    (s.runState = .idle →
      (∃ t, step { s with inbox := .preload i v l :: rest } = .next t ∧ t.x i = v ∧ t.locked i = l ∧
        (∀ r, r ≠ i → t.x r = s.x r ∧ t.locked r = s.locked r) ∧
        t = { s with regs := t.regs, locks := t.locks, inbox := rest }) ∧
      step { s with inbox := .start :: rest } = .next { s with runState := .running, inbox := rest } ∧
      (s.Inv → s.line = 0 ∧ s.pc = 0)) ∧
    (s.runState ≠ .idle →
      step { s with inbox := .preload i v l :: rest } = .next { s with inbox := rest } ∧
      step { s with inbox := .start :: rest } = .next { s with inbox := rest })

/-- R41, R23, R32: the debug port and the outputs `LINE` and `PC` while the core is not RUNNING. -/
def Obligations.DebugPortReads : Prop :=
  ∀ s : State, s.runState ≠ .running →
    (∀ i : Reg, s.dbgRead (BitVec.ofNat 6 i.val) = some (s.x i, s.locked i)) ∧
    s.dbgRead 32 = some (s.rem, false) ∧
    (∀ a : BitVec 6, 33 ≤ a.toNat → s.dbgRead a = some (0, false)) ∧
    s.lineOut = some s.line ∧ s.pcOut = some s.pc

/-- R29, R28, R243, R241: the status word in each run state. -/
def Obligations.StatusWordValues : Prop :=
  ∀ s : State, s.Inv →
    (s.runState = .idle → s.status = 0) ∧ (s.runState = .running → s.status = 1) ∧ (s.runState = .suspended → s.status = 2) ∧
    (s.runState = .halted →
      (s.haltCause = .hlt → s.status = 0x3) ∧ (s.haltCause = .ended → s.status = 0xB) ∧
      (s.haltCause = .exit → s.status = 0x13) ∧
      (s.haltCause = .illegal → s.status = 0x1B + BitVec.ofNat 32 s.illegalByte.toNat * 0x10000)) ∧
    (s.runState = .faulted →
      (s.faultCause = .regIndexRange → s.status = 0x104) ∧ (s.faultCause = .regPointerRange → s.status = 0x204) ∧
      (s.faultCause = .divZero → s.status = 0x304) ∧ (s.faultCause = .stackUnderflow → s.status = 0x404) ∧
      (s.faultCause = .badHostcall → s.status = 0x504) ∧ (s.faultCause = .stackOverflow → s.status = 0x604) ∧
      (s.faultCause = .arithOverflow → s.status = 0x704) ∧ (s.faultCause = .divOverflow → s.status = 0x804) ∧
      (s.faultCause = .programOverrun → s.status = 0x904) ∧ (s.faultCause = .branchRange → s.status = 0xA04) ∧
      (s.faultCause = .gotoUnresolved → s.status = 0xB04))

/-- R35: the count of general registers whose content is nonzero; `rem` is not counted; 0 at reset. -/
def Obligations.UsageCountCounts : Prop :=
  (∀ s : State, s.usageCount.toNat = (Finset.univ.filter fun i : Reg => s.x i ≠ 0).card) ∧ State.reset.usageCount = 0

/-- R40, R250: the port presents the one event not accepted while the core waits for its acceptance, and none otherwise; the
host's level of `ev_ready` changes nothing else, and an acceptance without an event nothing at all (log 3, log 4, log 5). That
raising the level accepts no event by itself is the model's choice (log 21). -/
def Obligations.EventPortPresentsUnaccepted : Prop :=
  ∀ (s : State) (rest : List HostAction),
    (∀ es e, s.events = es ++ [e] → s.stalled ≠ none → s.evPort = some e) ∧
    (s.stalled = none → s.evPort = none) ∧
    (∀ level, step { s with inbox := .setReady level :: rest } = .next { s with evReady := level, inbox := rest }) ∧
    (s.stalled = none ∨ s.runState ≠ .running → step { s with inbox := .accept :: rest } = .next { s with inbox := rest })

/-! ### Waiting inside an instruction -/

/-- R250, R110: when the host accepts the event, by a high `ev_ready` at the core's step (log 21) or by one
acceptance (log 5), the instruction goes on with exactly what it had left. -/
def Obligations.AcceptanceContinuesInstruction : Prop :=
  ∀ (s : State) (r : Rest), s.runState = .running → s.stalled = some r →
    (s.inbox = [] → s.evReady = true → step s = .next (continued r { s with stalled := none })) ∧
    (∀ rest, step { s with inbox := .accept :: rest } = .next (continued r { s with stalled := none, inbox := rest }))

/-- R250, R110, R126: waiting inside an instruction changes nothing but the moment: at most two acceptances, or `ev_ready`
being high at the core's next step (log 21), lead from where the instruction waits to where it ends when every
event is accepted at once. -/
def Obligations.WaitingChangesOnlyTheMoment : Prop :=
  ∀ (i : Instr) (s t u : State), CoreActs s → s.evReady = false → exec i s = .next t →
    exec i { s with evReady := true } = .next u →
    (∃ n, n ≤ 2 ∧ Sys2Proof.core.run n { t with inbox := List.replicate n .accept } = .next { u with evReady := false }) ∧
    (t.stalled ≠ none → t.runState = .running ∧ step { t with evReady := true } = .next u)
end

