-- ==== Sys2Proof/Laws/Decode.lean ====
section
/-! SUPPORT. What decoding answers: the instruction's opcode and operand bytes are the first bytes of the list, and a
rejection names the length of the list. -/

namespace Sys2Proof

theorem immOf_bytes (hi lo : Byte) : (immOf hi lo).extractLsb' 8 8 = hi ∧ (immOf hi lo).extractLsb' 0 8 = lo := by
  have h1 := hi.isLt
  have h2 := lo.isLt
  constructor <;> apply BitVec.eq_of_toNat_eq <;>
    simp only [immOf, BitVec.extractLsb'_toNat, BitVec.toNat_ofNat, Nat.shiftRight_eq_div_pow] <;> omega

theorem bytes_immOf (imm : BitVec 16) : immOf (imm.extractLsb' 8 8) (imm.extractLsb' 0 8) = imm := by
  have h := imm.isLt
  apply BitVec.eq_of_toNat_eq
  simp only [immOf, BitVec.extractLsb'_toNat, BitVec.toNat_ofNat, Nat.shiftRight_eq_div_pow]
  omega

/-- The instruction decoded has the bytes it was decoded from, and is well-formed. -/
def DecodesAs (bs : List Byte) (i : Instr) : Prop :=
  i.WellFormed ∧ (i.opcode :: i.operandBytes) <+: bs

theorem readOne_ok {rest : List Byte} {mk : Byte → Instr} {i : Instr} (h : readOne rest mk = .ok i) :
    ∃ b1 r, rest = b1 :: r ∧ i = mk b1 := by
  match rest, h with
  | b1 :: r, h => exact ⟨b1, r, rfl, (Except.ok.inj h).symm⟩

theorem readTwo_ok {rest : List Byte} {mk : Byte → Byte → Instr} {i : Instr} (h : readTwo rest mk = .ok i) :
    ∃ b1 b2 r, rest = b1 :: b2 :: r ∧ i = mk b1 b2 := by
  match rest, h with
  | b1 :: b2 :: r, h => exact ⟨b1, b2, r, rfl, (Except.ok.inj h).symm⟩

theorem readThree_ok {rest : List Byte} {mk : Byte → Byte → Byte → Instr} {i : Instr} (h : readThree rest mk = .ok i) :
    ∃ b1 b2 b3 r, rest = b1 :: b2 :: b3 :: r ∧ i = mk b1 b2 b3 := by
  match rest, h with
  | b1 :: b2 :: b3 :: r, h => exact ⟨b1, b2, b3, r, rfl, (Except.ok.inj h).symm⟩

theorem readOne_error {rest : List Byte} {mk : Byte → Instr} {k : Nat} (h : readOne rest mk = .error (.missingByte k)) :
    k = rest.length + 1 ∧ k < 4 := by
  match rest, h with
  | [], h => cases h; exact ⟨rfl, by omega⟩

theorem readTwo_error {rest : List Byte} {mk : Byte → Byte → Instr} {k : Nat}
    (h : readTwo rest mk = .error (.missingByte k)) : k = rest.length + 1 ∧ k < 4 := by
  match rest, h with
  | [], h => cases h; exact ⟨rfl, by omega⟩
  | [_], h => cases h; exact ⟨rfl, by omega⟩

theorem readThree_error {rest : List Byte} {mk : Byte → Byte → Byte → Instr} {k : Nat}
    (h : readThree rest mk = .error (.missingByte k)) : k = rest.length + 1 ∧ k < 4 := by
  match rest, h with
  | [], h => cases h; exact ⟨rfl, by omega⟩
  | [_], h => cases h; exact ⟨rfl, by omega⟩
  | [_, _], h => cases h; exact ⟨rfl, by omega⟩

/-- What a rejection says: the byte missing is the one after the last given, within the slot. -/
theorem decode_error {bs : List Byte} {k : Nat} (h : decode bs = .error (.missingByte k)) : k = bs.length ∧ k < 4 := by
  cases bs with
  | nil => cases h; exact ⟨rfl, by omega⟩
  | cons op rest =>
    simp only [decode] at h
    split at h
    all_goals first
      | exact readOne_error h
      | exact readTwo_error h
      | exact readThree_error h
      | exact absurd h (by simp)

theorem opcode_of_toNat {op : Byte} {n : Nat} (hn : op.toNat = n) : op = BitVec.ofNat 8 n := by
  rw [← hn, BitVec.ofNat_toNat, BitVec.setWidth_eq]

/-- What an acceptance says: the bytes given begin with the opcode and the operand bytes of a well-formed instruction. -/
theorem decode_ok {bs : List Byte} {i : Instr} (h : decode bs = .ok i) : DecodesAs bs i := by
  cases bs with
  | nil => exact absurd h (by simp [decode])
  | cons op rest =>
    simp only [decode] at h
    split at h
    case h_24 h0 h1 h2 h3 h4 h5 h6 h8 h9 h10 h11 h12 h13 h14 h15 h16 h17 h18 h19 h20 h21 h22 h23 =>
      obtain rfl := Except.ok.inj h
      refine ⟨?_, rest, rfl⟩
      simp only [Instr.WellFormed, Instr.wellFormed, isUnmapped, Bool.or_eq_true, beq_iff_eq, decide_eq_true_eq]
      simp only [imp_false] at *
      omega
    all_goals
      rename_i hop
      have hop := opcode_of_toNat hop
      subst hop
    all_goals first
      | (obtain rfl := Except.ok.inj h; exact ⟨rfl, rest, rfl⟩)
      | (obtain ⟨b1, r, rfl, rfl⟩ := readOne_ok h; exact ⟨rfl, r, rfl⟩)
      | (obtain ⟨b1, b2, r, rfl, rfl⟩ := readTwo_ok h; exact ⟨rfl, r, rfl⟩)
      | (obtain ⟨b1, b2, b3, r, rfl, rfl⟩ := readThree_ok h; exact ⟨rfl, r, rfl⟩)
      | (obtain ⟨b1, b2, b3, r, rfl, rfl⟩ := readThree_ok h
         exact ⟨rfl, r, by simp [Instr.opcode, Instr.operandBytes, immOf_bytes]⟩)

end Sys2Proof
end

