-- ==== Sys2Proof/Laws/State.lean ====
section
/-! SUPPORT. One lemma per field per update of State, and what the accessors read after each update, for simp: no later
proof unfolds a record update. -/

namespace Sys2Proof.Machine

variable (s : State)

/-! ### `State.setX` -/

@[simp] theorem State.setX_regs (i : Reg) (v : Word) : (s.setX i v).regs = s.regs.set i v i.isLt := rfl
@[simp] theorem State.setX_locks (i : Reg) (v : Word) : (s.setX i v).locks = s.locks := rfl
@[simp] theorem State.setX_rem (i : Reg) (v : Word) : (s.setX i v).rem = s.rem := rfl
@[simp] theorem State.setX_stack (i : Reg) (v : Word) : (s.setX i v).stack = s.stack := rfl
@[simp] theorem State.setX_labels (i : Reg) (v : Word) : (s.setX i v).labels = s.labels := rfl
@[simp] theorem State.setX_line (i : Reg) (v : Word) : (s.setX i v).line = s.line := rfl
@[simp] theorem State.setX_pc (i : Reg) (v : Word) : (s.setX i v).pc = s.pc := rfl
@[simp] theorem State.setX_runState (i : Reg) (v : Word) : (s.setX i v).runState = s.runState := rfl
@[simp] theorem State.setX_haltCause (i : Reg) (v : Word) : (s.setX i v).haltCause = s.haltCause := rfl
@[simp] theorem State.setX_faultCause (i : Reg) (v : Word) : (s.setX i v).faultCause = s.faultCause := rfl
@[simp] theorem State.setX_illegalByte (i : Reg) (v : Word) : (s.setX i v).illegalByte = s.illegalByte := rfl
@[simp] theorem State.setX_exitCode (i : Reg) (v : Word) : (s.setX i v).exitCode = s.exitCode := rfl
@[simp] theorem State.setX_faultLine (i : Reg) (v : Word) : (s.setX i v).faultLine = s.faultLine := rfl
@[simp] theorem State.setX_faultOffset (i : Reg) (v : Word) : (s.setX i v).faultOffset = s.faultOffset := rfl
@[simp] theorem State.setX_prog (i : Reg) (v : Word) : (s.setX i v).prog = s.prog := rfl
@[simp] theorem State.setX_progLen (i : Reg) (v : Word) : (s.setX i v).progLen = s.progLen := rfl
@[simp] theorem State.setX_events (i : Reg) (v : Word) : (s.setX i v).events = s.events := rfl
@[simp] theorem State.setX_stalled (i : Reg) (v : Word) : (s.setX i v).stalled = s.stalled := rfl
@[simp] theorem State.setX_evReady (i : Reg) (v : Word) : (s.setX i v).evReady = s.evReady := rfl
@[simp] theorem State.setX_inbox (i : Reg) (v : Word) : (s.setX i v).inbox = s.inbox := rfl
@[simp] theorem State.setX_config (i : Reg) (v : Word) : (s.setX i v).config = s.config := rfl

/-! ### `State.setRem` -/

@[simp] theorem State.setRem_regs (v : Word) : (s.setRem v).regs = s.regs := rfl
@[simp] theorem State.setRem_locks (v : Word) : (s.setRem v).locks = s.locks := rfl
@[simp] theorem State.setRem_rem (v : Word) : (s.setRem v).rem = v := rfl
@[simp] theorem State.setRem_stack (v : Word) : (s.setRem v).stack = s.stack := rfl
@[simp] theorem State.setRem_labels (v : Word) : (s.setRem v).labels = s.labels := rfl
@[simp] theorem State.setRem_line (v : Word) : (s.setRem v).line = s.line := rfl
@[simp] theorem State.setRem_pc (v : Word) : (s.setRem v).pc = s.pc := rfl
@[simp] theorem State.setRem_runState (v : Word) : (s.setRem v).runState = s.runState := rfl
@[simp] theorem State.setRem_haltCause (v : Word) : (s.setRem v).haltCause = s.haltCause := rfl
@[simp] theorem State.setRem_faultCause (v : Word) : (s.setRem v).faultCause = s.faultCause := rfl
@[simp] theorem State.setRem_illegalByte (v : Word) : (s.setRem v).illegalByte = s.illegalByte := rfl
@[simp] theorem State.setRem_exitCode (v : Word) : (s.setRem v).exitCode = s.exitCode := rfl
@[simp] theorem State.setRem_faultLine (v : Word) : (s.setRem v).faultLine = s.faultLine := rfl
@[simp] theorem State.setRem_faultOffset (v : Word) : (s.setRem v).faultOffset = s.faultOffset := rfl
@[simp] theorem State.setRem_prog (v : Word) : (s.setRem v).prog = s.prog := rfl
@[simp] theorem State.setRem_progLen (v : Word) : (s.setRem v).progLen = s.progLen := rfl
@[simp] theorem State.setRem_events (v : Word) : (s.setRem v).events = s.events := rfl
@[simp] theorem State.setRem_stalled (v : Word) : (s.setRem v).stalled = s.stalled := rfl
@[simp] theorem State.setRem_evReady (v : Word) : (s.setRem v).evReady = s.evReady := rfl
@[simp] theorem State.setRem_inbox (v : Word) : (s.setRem v).inbox = s.inbox := rfl
@[simp] theorem State.setRem_config (v : Word) : (s.setRem v).config = s.config := rfl

/-! ### `State.setStack` -/

@[simp] theorem State.setStack_regs (st : List Word) : (s.setStack st).regs = s.regs := rfl
@[simp] theorem State.setStack_locks (st : List Word) : (s.setStack st).locks = s.locks := rfl
@[simp] theorem State.setStack_rem (st : List Word) : (s.setStack st).rem = s.rem := rfl
@[simp] theorem State.setStack_stack (st : List Word) : (s.setStack st).stack = st := rfl
@[simp] theorem State.setStack_labels (st : List Word) : (s.setStack st).labels = s.labels := rfl
@[simp] theorem State.setStack_line (st : List Word) : (s.setStack st).line = s.line := rfl
@[simp] theorem State.setStack_pc (st : List Word) : (s.setStack st).pc = s.pc := rfl
@[simp] theorem State.setStack_runState (st : List Word) : (s.setStack st).runState = s.runState := rfl
@[simp] theorem State.setStack_haltCause (st : List Word) : (s.setStack st).haltCause = s.haltCause := rfl
@[simp] theorem State.setStack_faultCause (st : List Word) : (s.setStack st).faultCause = s.faultCause := rfl
@[simp] theorem State.setStack_illegalByte (st : List Word) : (s.setStack st).illegalByte = s.illegalByte := rfl
@[simp] theorem State.setStack_exitCode (st : List Word) : (s.setStack st).exitCode = s.exitCode := rfl
@[simp] theorem State.setStack_faultLine (st : List Word) : (s.setStack st).faultLine = s.faultLine := rfl
@[simp] theorem State.setStack_faultOffset (st : List Word) : (s.setStack st).faultOffset = s.faultOffset := rfl
@[simp] theorem State.setStack_prog (st : List Word) : (s.setStack st).prog = s.prog := rfl
@[simp] theorem State.setStack_progLen (st : List Word) : (s.setStack st).progLen = s.progLen := rfl
@[simp] theorem State.setStack_events (st : List Word) : (s.setStack st).events = s.events := rfl
@[simp] theorem State.setStack_stalled (st : List Word) : (s.setStack st).stalled = s.stalled := rfl
@[simp] theorem State.setStack_evReady (st : List Word) : (s.setStack st).evReady = s.evReady := rfl
@[simp] theorem State.setStack_inbox (st : List Word) : (s.setStack st).inbox = s.inbox := rfl
@[simp] theorem State.setStack_config (st : List Word) : (s.setStack st).config = s.config := rfl

/-! ### `State.bindLabel` -/

@[simp] theorem State.bindLabel_regs (k : Byte) : (s.bindLabel k).regs = s.regs := rfl
@[simp] theorem State.bindLabel_locks (k : Byte) : (s.bindLabel k).locks = s.locks := rfl
@[simp] theorem State.bindLabel_rem (k : Byte) : (s.bindLabel k).rem = s.rem := rfl
@[simp] theorem State.bindLabel_stack (k : Byte) : (s.bindLabel k).stack = s.stack := rfl
@[simp] theorem State.bindLabel_labels (k : Byte) : (s.bindLabel k).labels = s.labels.set k.toNat { valid := true, loc := s.line } k.isLt := rfl
@[simp] theorem State.bindLabel_line (k : Byte) : (s.bindLabel k).line = s.line := rfl
@[simp] theorem State.bindLabel_pc (k : Byte) : (s.bindLabel k).pc = s.pc := rfl
@[simp] theorem State.bindLabel_runState (k : Byte) : (s.bindLabel k).runState = s.runState := rfl
@[simp] theorem State.bindLabel_haltCause (k : Byte) : (s.bindLabel k).haltCause = s.haltCause := rfl
@[simp] theorem State.bindLabel_faultCause (k : Byte) : (s.bindLabel k).faultCause = s.faultCause := rfl
@[simp] theorem State.bindLabel_illegalByte (k : Byte) : (s.bindLabel k).illegalByte = s.illegalByte := rfl
@[simp] theorem State.bindLabel_exitCode (k : Byte) : (s.bindLabel k).exitCode = s.exitCode := rfl
@[simp] theorem State.bindLabel_faultLine (k : Byte) : (s.bindLabel k).faultLine = s.faultLine := rfl
@[simp] theorem State.bindLabel_faultOffset (k : Byte) : (s.bindLabel k).faultOffset = s.faultOffset := rfl
@[simp] theorem State.bindLabel_prog (k : Byte) : (s.bindLabel k).prog = s.prog := rfl
@[simp] theorem State.bindLabel_progLen (k : Byte) : (s.bindLabel k).progLen = s.progLen := rfl
@[simp] theorem State.bindLabel_events (k : Byte) : (s.bindLabel k).events = s.events := rfl
@[simp] theorem State.bindLabel_stalled (k : Byte) : (s.bindLabel k).stalled = s.stalled := rfl
@[simp] theorem State.bindLabel_evReady (k : Byte) : (s.bindLabel k).evReady = s.evReady := rfl
@[simp] theorem State.bindLabel_inbox (k : Byte) : (s.bindLabel k).inbox = s.inbox := rfl
@[simp] theorem State.bindLabel_config (k : Byte) : (s.bindLabel k).config = s.config := rfl

/-! ### `State.toggleLock` -/

@[simp] theorem State.toggleLock_regs (i : Reg) : (s.toggleLock i).regs = s.regs := rfl
@[simp] theorem State.toggleLock_locks (i : Reg) : (s.toggleLock i).locks = s.locks.set i (!s.locked i) i.isLt := rfl
@[simp] theorem State.toggleLock_rem (i : Reg) : (s.toggleLock i).rem = s.rem := rfl
@[simp] theorem State.toggleLock_stack (i : Reg) : (s.toggleLock i).stack = s.stack := rfl
@[simp] theorem State.toggleLock_labels (i : Reg) : (s.toggleLock i).labels = s.labels := rfl
@[simp] theorem State.toggleLock_line (i : Reg) : (s.toggleLock i).line = s.line := rfl
@[simp] theorem State.toggleLock_pc (i : Reg) : (s.toggleLock i).pc = s.pc := rfl
@[simp] theorem State.toggleLock_runState (i : Reg) : (s.toggleLock i).runState = s.runState := rfl
@[simp] theorem State.toggleLock_haltCause (i : Reg) : (s.toggleLock i).haltCause = s.haltCause := rfl
@[simp] theorem State.toggleLock_faultCause (i : Reg) : (s.toggleLock i).faultCause = s.faultCause := rfl
@[simp] theorem State.toggleLock_illegalByte (i : Reg) : (s.toggleLock i).illegalByte = s.illegalByte := rfl
@[simp] theorem State.toggleLock_exitCode (i : Reg) : (s.toggleLock i).exitCode = s.exitCode := rfl
@[simp] theorem State.toggleLock_faultLine (i : Reg) : (s.toggleLock i).faultLine = s.faultLine := rfl
@[simp] theorem State.toggleLock_faultOffset (i : Reg) : (s.toggleLock i).faultOffset = s.faultOffset := rfl
@[simp] theorem State.toggleLock_prog (i : Reg) : (s.toggleLock i).prog = s.prog := rfl
@[simp] theorem State.toggleLock_progLen (i : Reg) : (s.toggleLock i).progLen = s.progLen := rfl
@[simp] theorem State.toggleLock_events (i : Reg) : (s.toggleLock i).events = s.events := rfl
@[simp] theorem State.toggleLock_stalled (i : Reg) : (s.toggleLock i).stalled = s.stalled := rfl
@[simp] theorem State.toggleLock_evReady (i : Reg) : (s.toggleLock i).evReady = s.evReady := rfl
@[simp] theorem State.toggleLock_inbox (i : Reg) : (s.toggleLock i).inbox = s.inbox := rfl
@[simp] theorem State.toggleLock_config (i : Reg) : (s.toggleLock i).config = s.config := rfl

/-! ### `State.record` -/

@[simp] theorem State.record_regs (e : Event) : (s.record e).regs = s.regs := rfl
@[simp] theorem State.record_locks (e : Event) : (s.record e).locks = s.locks := rfl
@[simp] theorem State.record_rem (e : Event) : (s.record e).rem = s.rem := rfl
@[simp] theorem State.record_stack (e : Event) : (s.record e).stack = s.stack := rfl
@[simp] theorem State.record_labels (e : Event) : (s.record e).labels = s.labels := rfl
@[simp] theorem State.record_line (e : Event) : (s.record e).line = s.line := rfl
@[simp] theorem State.record_pc (e : Event) : (s.record e).pc = s.pc := rfl
@[simp] theorem State.record_runState (e : Event) : (s.record e).runState = s.runState := rfl
@[simp] theorem State.record_haltCause (e : Event) : (s.record e).haltCause = s.haltCause := rfl
@[simp] theorem State.record_faultCause (e : Event) : (s.record e).faultCause = s.faultCause := rfl
@[simp] theorem State.record_illegalByte (e : Event) : (s.record e).illegalByte = s.illegalByte := rfl
@[simp] theorem State.record_exitCode (e : Event) : (s.record e).exitCode = s.exitCode := rfl
@[simp] theorem State.record_faultLine (e : Event) : (s.record e).faultLine = s.faultLine := rfl
@[simp] theorem State.record_faultOffset (e : Event) : (s.record e).faultOffset = s.faultOffset := rfl
@[simp] theorem State.record_prog (e : Event) : (s.record e).prog = s.prog := rfl
@[simp] theorem State.record_progLen (e : Event) : (s.record e).progLen = s.progLen := rfl
@[simp] theorem State.record_events (e : Event) : (s.record e).events = s.events ++ [e] := rfl
@[simp] theorem State.record_stalled (e : Event) : (s.record e).stalled = s.stalled := rfl
@[simp] theorem State.record_evReady (e : Event) : (s.record e).evReady = s.evReady := rfl
@[simp] theorem State.record_inbox (e : Event) : (s.record e).inbox = s.inbox := rfl
@[simp] theorem State.record_config (e : Event) : (s.record e).config = s.config := rfl

/-! ### `State.stallWith` -/

@[simp] theorem State.stallWith_regs (q : Rest) : (s.stallWith q).regs = s.regs := rfl
@[simp] theorem State.stallWith_locks (q : Rest) : (s.stallWith q).locks = s.locks := rfl
@[simp] theorem State.stallWith_rem (q : Rest) : (s.stallWith q).rem = s.rem := rfl
@[simp] theorem State.stallWith_stack (q : Rest) : (s.stallWith q).stack = s.stack := rfl
@[simp] theorem State.stallWith_labels (q : Rest) : (s.stallWith q).labels = s.labels := rfl
@[simp] theorem State.stallWith_line (q : Rest) : (s.stallWith q).line = s.line := rfl
@[simp] theorem State.stallWith_pc (q : Rest) : (s.stallWith q).pc = s.pc := rfl
@[simp] theorem State.stallWith_runState (q : Rest) : (s.stallWith q).runState = s.runState := rfl
@[simp] theorem State.stallWith_haltCause (q : Rest) : (s.stallWith q).haltCause = s.haltCause := rfl
@[simp] theorem State.stallWith_faultCause (q : Rest) : (s.stallWith q).faultCause = s.faultCause := rfl
@[simp] theorem State.stallWith_illegalByte (q : Rest) : (s.stallWith q).illegalByte = s.illegalByte := rfl
@[simp] theorem State.stallWith_exitCode (q : Rest) : (s.stallWith q).exitCode = s.exitCode := rfl
@[simp] theorem State.stallWith_faultLine (q : Rest) : (s.stallWith q).faultLine = s.faultLine := rfl
@[simp] theorem State.stallWith_faultOffset (q : Rest) : (s.stallWith q).faultOffset = s.faultOffset := rfl
@[simp] theorem State.stallWith_prog (q : Rest) : (s.stallWith q).prog = s.prog := rfl
@[simp] theorem State.stallWith_progLen (q : Rest) : (s.stallWith q).progLen = s.progLen := rfl
@[simp] theorem State.stallWith_events (q : Rest) : (s.stallWith q).events = s.events := rfl
@[simp] theorem State.stallWith_stalled (q : Rest) : (s.stallWith q).stalled = some q := rfl
@[simp] theorem State.stallWith_evReady (q : Rest) : (s.stallWith q).evReady = s.evReady := rfl
@[simp] theorem State.stallWith_inbox (q : Rest) : (s.stallWith q).inbox = s.inbox := rfl
@[simp] theorem State.stallWith_config (q : Rest) : (s.stallWith q).config = s.config := rfl

/-! ### `State.advance` -/

@[simp] theorem State.advance_regs : s.advance.regs = s.regs := rfl
@[simp] theorem State.advance_locks : s.advance.locks = s.locks := rfl
@[simp] theorem State.advance_rem : s.advance.rem = s.rem := rfl
@[simp] theorem State.advance_stack : s.advance.stack = s.stack := rfl
@[simp] theorem State.advance_labels : s.advance.labels = s.labels := rfl
@[simp] theorem State.advance_line : s.advance.line = s.line + 1 := rfl
@[simp] theorem State.advance_pc : s.advance.pc = linePc (s.line + 1) := rfl
@[simp] theorem State.advance_runState : s.advance.runState = s.runState := rfl
@[simp] theorem State.advance_haltCause : s.advance.haltCause = s.haltCause := rfl
@[simp] theorem State.advance_faultCause : s.advance.faultCause = s.faultCause := rfl
@[simp] theorem State.advance_illegalByte : s.advance.illegalByte = s.illegalByte := rfl
@[simp] theorem State.advance_exitCode : s.advance.exitCode = s.exitCode := rfl
@[simp] theorem State.advance_faultLine : s.advance.faultLine = s.faultLine := rfl
@[simp] theorem State.advance_faultOffset : s.advance.faultOffset = s.faultOffset := rfl
@[simp] theorem State.advance_prog : s.advance.prog = s.prog := rfl
@[simp] theorem State.advance_progLen : s.advance.progLen = s.progLen := rfl
@[simp] theorem State.advance_events : s.advance.events = s.events := rfl
@[simp] theorem State.advance_stalled : s.advance.stalled = s.stalled := rfl
@[simp] theorem State.advance_evReady : s.advance.evReady = s.evReady := rfl
@[simp] theorem State.advance_inbox : s.advance.inbox = s.inbox := rfl
@[simp] theorem State.advance_config : s.advance.config = s.config := rfl

/-! ### `State.raise` -/

@[simp] theorem State.raise_regs (c : FaultCause) : (s.raise c).regs = s.regs := rfl
@[simp] theorem State.raise_locks (c : FaultCause) : (s.raise c).locks = s.locks := rfl
@[simp] theorem State.raise_rem (c : FaultCause) : (s.raise c).rem = s.rem := rfl
@[simp] theorem State.raise_stack (c : FaultCause) : (s.raise c).stack = s.stack := rfl
@[simp] theorem State.raise_labels (c : FaultCause) : (s.raise c).labels = s.labels := rfl
@[simp] theorem State.raise_line (c : FaultCause) : (s.raise c).line = s.line := rfl
@[simp] theorem State.raise_pc (c : FaultCause) : (s.raise c).pc = s.pc := rfl
@[simp] theorem State.raise_runState (c : FaultCause) : (s.raise c).runState = .faulted := rfl
@[simp] theorem State.raise_haltCause (c : FaultCause) : (s.raise c).haltCause = s.haltCause := rfl
@[simp] theorem State.raise_faultCause (c : FaultCause) : (s.raise c).faultCause = c := rfl
@[simp] theorem State.raise_illegalByte (c : FaultCause) : (s.raise c).illegalByte = s.illegalByte := rfl
@[simp] theorem State.raise_exitCode (c : FaultCause) : (s.raise c).exitCode = s.exitCode := rfl
@[simp] theorem State.raise_faultLine (c : FaultCause) : (s.raise c).faultLine = s.line := rfl
@[simp] theorem State.raise_faultOffset (c : FaultCause) : (s.raise c).faultOffset = s.pc := rfl
@[simp] theorem State.raise_prog (c : FaultCause) : (s.raise c).prog = s.prog := rfl
@[simp] theorem State.raise_progLen (c : FaultCause) : (s.raise c).progLen = s.progLen := rfl
@[simp] theorem State.raise_events (c : FaultCause) : (s.raise c).events = s.events := rfl
@[simp] theorem State.raise_stalled (c : FaultCause) : (s.raise c).stalled = s.stalled := rfl
@[simp] theorem State.raise_evReady (c : FaultCause) : (s.raise c).evReady = s.evReady := rfl
@[simp] theorem State.raise_inbox (c : FaultCause) : (s.raise c).inbox = s.inbox := rfl
@[simp] theorem State.raise_config (c : FaultCause) : (s.raise c).config = s.config := rfl

/-! ### `State.halt` -/

@[simp] theorem State.halt_regs (c : HaltCause) (w : Word) : (s.halt c w).regs = s.regs := rfl
@[simp] theorem State.halt_locks (c : HaltCause) (w : Word) : (s.halt c w).locks = s.locks := rfl
@[simp] theorem State.halt_rem (c : HaltCause) (w : Word) : (s.halt c w).rem = s.rem := rfl
@[simp] theorem State.halt_stack (c : HaltCause) (w : Word) : (s.halt c w).stack = s.stack := rfl
@[simp] theorem State.halt_labels (c : HaltCause) (w : Word) : (s.halt c w).labels = s.labels := rfl
@[simp] theorem State.halt_line (c : HaltCause) (w : Word) : (s.halt c w).line = s.line := rfl
@[simp] theorem State.halt_pc (c : HaltCause) (w : Word) : (s.halt c w).pc = s.pc := rfl
@[simp] theorem State.halt_runState (c : HaltCause) (w : Word) : (s.halt c w).runState = .halted := rfl
@[simp] theorem State.halt_haltCause (c : HaltCause) (w : Word) : (s.halt c w).haltCause = c := rfl
@[simp] theorem State.halt_faultCause (c : HaltCause) (w : Word) : (s.halt c w).faultCause = s.faultCause := rfl
@[simp] theorem State.halt_illegalByte (c : HaltCause) (w : Word) : (s.halt c w).illegalByte = s.illegalByte := rfl
@[simp] theorem State.halt_exitCode (c : HaltCause) (w : Word) : (s.halt c w).exitCode = w := rfl
@[simp] theorem State.halt_faultLine (c : HaltCause) (w : Word) : (s.halt c w).faultLine = s.faultLine := rfl
@[simp] theorem State.halt_faultOffset (c : HaltCause) (w : Word) : (s.halt c w).faultOffset = s.faultOffset := rfl
@[simp] theorem State.halt_prog (c : HaltCause) (w : Word) : (s.halt c w).prog = s.prog := rfl
@[simp] theorem State.halt_progLen (c : HaltCause) (w : Word) : (s.halt c w).progLen = s.progLen := rfl
@[simp] theorem State.halt_events (c : HaltCause) (w : Word) : (s.halt c w).events = s.events := rfl
@[simp] theorem State.halt_stalled (c : HaltCause) (w : Word) : (s.halt c w).stalled = s.stalled := rfl
@[simp] theorem State.halt_evReady (c : HaltCause) (w : Word) : (s.halt c w).evReady = s.evReady := rfl
@[simp] theorem State.halt_inbox (c : HaltCause) (w : Word) : (s.halt c w).inbox = s.inbox := rfl
@[simp] theorem State.halt_config (c : HaltCause) (w : Word) : (s.halt c w).config = s.config := rfl

/-! ### `State.hostSetReady` -/

@[simp] theorem State.hostSetReady_regs (b : Bool) : (s.hostSetReady b).regs = s.regs := rfl
@[simp] theorem State.hostSetReady_locks (b : Bool) : (s.hostSetReady b).locks = s.locks := rfl
@[simp] theorem State.hostSetReady_rem (b : Bool) : (s.hostSetReady b).rem = s.rem := rfl
@[simp] theorem State.hostSetReady_stack (b : Bool) : (s.hostSetReady b).stack = s.stack := rfl
@[simp] theorem State.hostSetReady_labels (b : Bool) : (s.hostSetReady b).labels = s.labels := rfl
@[simp] theorem State.hostSetReady_line (b : Bool) : (s.hostSetReady b).line = s.line := rfl
@[simp] theorem State.hostSetReady_pc (b : Bool) : (s.hostSetReady b).pc = s.pc := rfl
@[simp] theorem State.hostSetReady_runState (b : Bool) : (s.hostSetReady b).runState = s.runState := rfl
@[simp] theorem State.hostSetReady_haltCause (b : Bool) : (s.hostSetReady b).haltCause = s.haltCause := rfl
@[simp] theorem State.hostSetReady_faultCause (b : Bool) : (s.hostSetReady b).faultCause = s.faultCause := rfl
@[simp] theorem State.hostSetReady_illegalByte (b : Bool) : (s.hostSetReady b).illegalByte = s.illegalByte := rfl
@[simp] theorem State.hostSetReady_exitCode (b : Bool) : (s.hostSetReady b).exitCode = s.exitCode := rfl
@[simp] theorem State.hostSetReady_faultLine (b : Bool) : (s.hostSetReady b).faultLine = s.faultLine := rfl
@[simp] theorem State.hostSetReady_faultOffset (b : Bool) : (s.hostSetReady b).faultOffset = s.faultOffset := rfl
@[simp] theorem State.hostSetReady_prog (b : Bool) : (s.hostSetReady b).prog = s.prog := rfl
@[simp] theorem State.hostSetReady_progLen (b : Bool) : (s.hostSetReady b).progLen = s.progLen := rfl
@[simp] theorem State.hostSetReady_events (b : Bool) : (s.hostSetReady b).events = s.events := rfl
@[simp] theorem State.hostSetReady_stalled (b : Bool) : (s.hostSetReady b).stalled = s.stalled := rfl
@[simp] theorem State.hostSetReady_evReady (b : Bool) : (s.hostSetReady b).evReady = b := rfl
@[simp] theorem State.hostSetReady_inbox (b : Bool) : (s.hostSetReady b).inbox = s.inbox := rfl
@[simp] theorem State.hostSetReady_config (b : Bool) : (s.hostSetReady b).config = s.config := rfl

/-! ### `State.finish`, `State.emitThen`, `State.put`: the fields no effect of an instruction's end changes -/

/-- All but these fields stays. -/
theorem State.finish_frame (r : Rest) (s : State) :
    State.finish r s =
      { s with
        regs := (State.finish r s).regs, rem := (State.finish r s).rem, line := (State.finish r s).line
        pc := (State.finish r s).pc, runState := (State.finish r s).runState, faultCause := (State.finish r s).faultCause
        faultLine := (State.finish r s).faultLine, faultOffset := (State.finish r s).faultOffset
        events := (State.finish r s).events, stalled := (State.finish r s).stalled } := by
  induction r generalizing s with
  | advance => rfl
  | unresolvedGoto => simp only [State.finish, State.unresolvedGoto]; cases s.config.unresolvedGoto <;> rfl
  | setRem v r ih => exact ih (s.setRem v)
  | write k v r ih =>
    simp only [State.finish]
    split
    · split
      · exact ih _
      · rfl
    · exact ih _

@[simp] theorem State.finish_locks (r : Rest) : (State.finish r s).locks = s.locks :=
  (congrArg State.locks (State.finish_frame r s)).trans rfl
@[simp] theorem State.finish_stack (r : Rest) : (State.finish r s).stack = s.stack :=
  (congrArg State.stack (State.finish_frame r s)).trans rfl
@[simp] theorem State.finish_labels (r : Rest) : (State.finish r s).labels = s.labels :=
  (congrArg State.labels (State.finish_frame r s)).trans rfl
@[simp] theorem State.finish_haltCause (r : Rest) : (State.finish r s).haltCause = s.haltCause :=
  (congrArg State.haltCause (State.finish_frame r s)).trans rfl
@[simp] theorem State.finish_illegalByte (r : Rest) : (State.finish r s).illegalByte = s.illegalByte :=
  (congrArg State.illegalByte (State.finish_frame r s)).trans rfl
@[simp] theorem State.finish_exitCode (r : Rest) : (State.finish r s).exitCode = s.exitCode :=
  (congrArg State.exitCode (State.finish_frame r s)).trans rfl
@[simp] theorem State.finish_prog (r : Rest) : (State.finish r s).prog = s.prog :=
  (congrArg State.prog (State.finish_frame r s)).trans rfl
@[simp] theorem State.finish_progLen (r : Rest) : (State.finish r s).progLen = s.progLen :=
  (congrArg State.progLen (State.finish_frame r s)).trans rfl
@[simp] theorem State.finish_evReady (r : Rest) : (State.finish r s).evReady = s.evReady :=
  (congrArg State.evReady (State.finish_frame r s)).trans rfl
@[simp] theorem State.finish_inbox (r : Rest) : (State.finish r s).inbox = s.inbox :=
  (congrArg State.inbox (State.finish_frame r s)).trans rfl
@[simp] theorem State.finish_config (r : Rest) : (State.finish r s).config = s.config :=
  (congrArg State.config (State.finish_frame r s)).trans rfl
@[simp] theorem State.finish_locked (r : Rest) (i : Reg) : (State.finish r s).locked i = s.locked i := by
  unfold State.locked; rw [State.finish_locks]
@[simp] theorem State.finish_labelAt (r : Rest) (l : Byte) : (State.finish r s).labelAt l = s.labelAt l := by
  unfold State.labelAt; rw [State.finish_labels]
@[simp] theorem State.emitThen_locks (e : Event) (r : Rest) : (s.emitThen e r).locks = s.locks := by
  unfold State.emitThen; split
  · exact State.finish_locks (s.record e) r
  · rfl
@[simp] theorem State.emitThen_stack (e : Event) (r : Rest) : (s.emitThen e r).stack = s.stack := by
  unfold State.emitThen; split
  · exact State.finish_stack (s.record e) r
  · rfl
@[simp] theorem State.emitThen_labels (e : Event) (r : Rest) : (s.emitThen e r).labels = s.labels := by
  unfold State.emitThen; split
  · exact State.finish_labels (s.record e) r
  · rfl
@[simp] theorem State.emitThen_haltCause (e : Event) (r : Rest) : (s.emitThen e r).haltCause = s.haltCause := by
  unfold State.emitThen; split
  · exact State.finish_haltCause (s.record e) r
  · rfl
@[simp] theorem State.emitThen_illegalByte (e : Event) (r : Rest) : (s.emitThen e r).illegalByte = s.illegalByte := by
  unfold State.emitThen; split
  · exact State.finish_illegalByte (s.record e) r
  · rfl
@[simp] theorem State.emitThen_exitCode (e : Event) (r : Rest) : (s.emitThen e r).exitCode = s.exitCode := by
  unfold State.emitThen; split
  · exact State.finish_exitCode (s.record e) r
  · rfl
@[simp] theorem State.emitThen_prog (e : Event) (r : Rest) : (s.emitThen e r).prog = s.prog := by
  unfold State.emitThen; split
  · exact State.finish_prog (s.record e) r
  · rfl
@[simp] theorem State.emitThen_progLen (e : Event) (r : Rest) : (s.emitThen e r).progLen = s.progLen := by
  unfold State.emitThen; split
  · exact State.finish_progLen (s.record e) r
  · rfl
@[simp] theorem State.emitThen_evReady (e : Event) (r : Rest) : (s.emitThen e r).evReady = s.evReady := by
  unfold State.emitThen; split
  · exact State.finish_evReady (s.record e) r
  · rfl
@[simp] theorem State.emitThen_inbox (e : Event) (r : Rest) : (s.emitThen e r).inbox = s.inbox := by
  unfold State.emitThen; split
  · exact State.finish_inbox (s.record e) r
  · rfl
@[simp] theorem State.emitThen_config (e : Event) (r : Rest) : (s.emitThen e r).config = s.config := by
  unfold State.emitThen; split
  · exact State.finish_config (s.record e) r
  · rfl
@[simp] theorem State.emitThen_locked (e : Event) (r : Rest) (i : Reg) : (s.emitThen e r).locked i = s.locked i := by
  unfold State.locked; rw [State.emitThen_locks]
@[simp] theorem State.emitThen_labelAt (e : Event) (r : Rest) (l : Byte) : (s.emitThen e r).labelAt l = s.labelAt l := by
  unfold State.labelAt; rw [State.emitThen_labels]
@[simp] theorem State.put_locks (k : Reg) (v : Word) : (s.put k v).locks = s.locks := State.finish_locks s _
@[simp] theorem State.put_stack (k : Reg) (v : Word) : (s.put k v).stack = s.stack := State.finish_stack s _
@[simp] theorem State.put_labels (k : Reg) (v : Word) : (s.put k v).labels = s.labels := State.finish_labels s _
@[simp] theorem State.put_haltCause (k : Reg) (v : Word) : (s.put k v).haltCause = s.haltCause := State.finish_haltCause s _
@[simp] theorem State.put_illegalByte (k : Reg) (v : Word) : (s.put k v).illegalByte = s.illegalByte := State.finish_illegalByte s _
@[simp] theorem State.put_exitCode (k : Reg) (v : Word) : (s.put k v).exitCode = s.exitCode := State.finish_exitCode s _
@[simp] theorem State.put_prog (k : Reg) (v : Word) : (s.put k v).prog = s.prog := State.finish_prog s _
@[simp] theorem State.put_progLen (k : Reg) (v : Word) : (s.put k v).progLen = s.progLen := State.finish_progLen s _
@[simp] theorem State.put_evReady (k : Reg) (v : Word) : (s.put k v).evReady = s.evReady := State.finish_evReady s _
@[simp] theorem State.put_inbox (k : Reg) (v : Word) : (s.put k v).inbox = s.inbox := State.finish_inbox s _
@[simp] theorem State.put_config (k : Reg) (v : Word) : (s.put k v).config = s.config := State.finish_config s _
@[simp] theorem State.put_locked (k : Reg) (v : Word) (i : Reg) : (s.put k v).locked i = s.locked i := State.finish_locked s _ i
@[simp] theorem State.put_labelAt (k : Reg) (v : Word) (l : Byte) : (s.put k v).labelAt l = s.labelAt l := State.finish_labelAt s _ l

/-! ### Accessors after updates -/

@[simp] theorem State.setX_x (i j : Reg) (v : Word) : (s.setX i v).x j = if i = j then v else s.x j := by
  unfold State.x State.setX
  simp only [Vector.get_eq_getElem, Vector.getElem_set, Fin.val_inj]

@[simp] theorem State.toggleLock_locked (i j : Reg) :
    (s.toggleLock i).locked j = if i = j then !s.locked i else s.locked j := by
  unfold State.locked State.toggleLock
  simp only [Vector.get_eq_getElem, Vector.getElem_set, Fin.val_inj, State.locked]

@[simp] theorem State.bindLabel_labelAt (k j : Byte) :
    (s.bindLabel k).labelAt j = if k = j then { valid := true, loc := s.line } else s.labelAt j := by
  unfold State.labelAt State.bindLabel
  simp only [Vector.get_eq_getElem, Vector.getElem_set, BitVec.val_toFin, BitVec.toNat_inj]

@[simp] theorem State.setRem_x (v : Word) (r : Reg) : (s.setRem v).x r = s.x r := rfl
@[simp] theorem State.setStack_x (st : List Word) (r : Reg) : (s.setStack st).x r = s.x r := rfl
@[simp] theorem State.bindLabel_x (k : Byte) (r : Reg) : (s.bindLabel k).x r = s.x r := rfl
@[simp] theorem State.toggleLock_x (i : Reg) (r : Reg) : (s.toggleLock i).x r = s.x r := rfl
@[simp] theorem State.record_x (e : Event) (r : Reg) : (s.record e).x r = s.x r := rfl
@[simp] theorem State.stallWith_x (q : Rest) (r : Reg) : (s.stallWith q).x r = s.x r := rfl
@[simp] theorem State.advance_x (r : Reg) : s.advance.x r = s.x r := rfl
@[simp] theorem State.raise_x (c : FaultCause) (r : Reg) : (s.raise c).x r = s.x r := rfl
@[simp] theorem State.halt_x (c : HaltCause) (w : Word) (r : Reg) : (s.halt c w).x r = s.x r := rfl
@[simp] theorem State.hostSetReady_x (b : Bool) (r : Reg) : (s.hostSetReady b).x r = s.x r := rfl
@[simp] theorem State.setX_locked (i : Reg) (v : Word) (r : Reg) : (s.setX i v).locked r = s.locked r := rfl
@[simp] theorem State.setRem_locked (v : Word) (r : Reg) : (s.setRem v).locked r = s.locked r := rfl
@[simp] theorem State.setStack_locked (st : List Word) (r : Reg) : (s.setStack st).locked r = s.locked r := rfl
@[simp] theorem State.bindLabel_locked (k : Byte) (r : Reg) : (s.bindLabel k).locked r = s.locked r := rfl
@[simp] theorem State.record_locked (e : Event) (r : Reg) : (s.record e).locked r = s.locked r := rfl
@[simp] theorem State.stallWith_locked (q : Rest) (r : Reg) : (s.stallWith q).locked r = s.locked r := rfl
@[simp] theorem State.advance_locked (r : Reg) : s.advance.locked r = s.locked r := rfl
@[simp] theorem State.raise_locked (c : FaultCause) (r : Reg) : (s.raise c).locked r = s.locked r := rfl
@[simp] theorem State.halt_locked (c : HaltCause) (w : Word) (r : Reg) : (s.halt c w).locked r = s.locked r := rfl
@[simp] theorem State.hostSetReady_locked (b : Bool) (r : Reg) : (s.hostSetReady b).locked r = s.locked r := rfl
@[simp] theorem State.setX_labelAt (i : Reg) (v : Word) (l : Byte) : (s.setX i v).labelAt l = s.labelAt l := rfl
@[simp] theorem State.setRem_labelAt (v : Word) (l : Byte) : (s.setRem v).labelAt l = s.labelAt l := rfl
@[simp] theorem State.setStack_labelAt (st : List Word) (l : Byte) : (s.setStack st).labelAt l = s.labelAt l := rfl
@[simp] theorem State.toggleLock_labelAt (i : Reg) (l : Byte) : (s.toggleLock i).labelAt l = s.labelAt l := rfl
@[simp] theorem State.record_labelAt (e : Event) (l : Byte) : (s.record e).labelAt l = s.labelAt l := rfl
@[simp] theorem State.stallWith_labelAt (q : Rest) (l : Byte) : (s.stallWith q).labelAt l = s.labelAt l := rfl
@[simp] theorem State.advance_labelAt (l : Byte) : s.advance.labelAt l = s.labelAt l := rfl
@[simp] theorem State.raise_labelAt (c : FaultCause) (l : Byte) : (s.raise c).labelAt l = s.labelAt l := rfl
@[simp] theorem State.halt_labelAt (c : HaltCause) (w : Word) (l : Byte) : (s.halt c w).labelAt l = s.labelAt l := rfl
@[simp] theorem State.hostSetReady_labelAt (b : Bool) (l : Byte) : (s.hostSetReady b).labelAt l = s.labelAt l := rfl

/-- R43: the label table at reset, entry by entry. -/
theorem State.reset_labelAt (k : Byte) :
    State.reset.labelAt k = if k = 0 then { valid := true, loc := 0 } else { valid := false, loc := 0 } := by
  have hk : State.reset.labelAt k = resetLabels[k.toNat]'k.isLt := rfl
  rw [hk]
  unfold resetLabels
  split_ifs with h
  · subst h; exact Vector.getElem_set_self _
  · rw [Vector.getElem_set_ne _ _ (fun e : 0 = k.toNat => h (BitVec.eq_of_toNat_eq e.symm)), Vector.getElem_replicate]

end Sys2Proof.Machine
end

