-- ==== Sys2Proof/Laws/Ops.lean ====
section
/-! SUPPORT. One lemma per shared operation that says everything it can do: the lock-checked write, the branch, the
resolution of operands, and the shared ends of instructions. Provers cite these and unfold nothing. -/

namespace Sys2Proof.Machine

/-! ### Counters -/

theorem linePc_eq (l : Word) : linePc l = l * 4 := by
  apply BitVec.eq_of_toNat_eq
  simp [linePc, lineAddress, BitVec.toNat_mul]

theorem linePc_toNat {l : Word} (h : lineAddress l < 2 ^ 32) : (linePc l).toNat = lineAddress l := by
  rw [linePc, BitVec.toNat_ofNat, Nat.mod_eq_of_lt h]

/-! ### The effects of an instruction: the lock-checked write (R118) and the event (R250) -/

theorem State.emitThen_cases (s : State) (e : Event) (r : Rest) :
    (s.evReady = true ∧ s.emitThen e r = State.finish r (s.record e)) ∨
    (s.evReady = false ∧ s.emitThen e r = (s.record e).stallWith r) := by
  unfold State.emitThen
  cases s.evReady
  · exact .inr ⟨rfl, rfl⟩
  · exact .inl ⟨rfl, rfl⟩

/-- The lock-checked write and what follows it: into an unlocked register, or an event instead. -/
theorem State.finish_write_cases (s : State) (k : Reg) (v : Word) (r : Rest) :
    (s.locked k = false ∧ State.finish (.write k v r) s = State.finish r (s.setX k v)) ∨
    (s.locked k = true ∧
      State.finish (.write k v r) s = s.emitThen (s.softEvent .lockedWrite (BitVec.ofNat 32 k.val)) r) := by
  cases h : s.locked k
  · exact .inl ⟨rfl, by simp [State.finish, h]⟩
  · exact .inr ⟨rfl, by rw [State.finish, if_pos h]; rfl⟩

theorem State.put_cases (s : State) (k : Reg) (v : Word) :
    (s.locked k = false ∧ s.put k v = (s.setX k v).advance) ∨
    (s.locked k = true ∧ s.put k v = s.emitThen (s.softEvent .lockedWrite (BitVec.ofNat 32 k.val)) .advance) :=
  s.finish_write_cases k v .advance

/-- The registers a rest still writes. -/
def Rest.writes : Rest → List Reg
  | .advance | .unresolvedGoto => []
  | .setRem _ r => r.writes
  | .write k _ r => k :: r.writes

/-- A register changes only if it is unlocked and the rest writes it. -/
theorem State.finish_x (r : Rest) (s : State) (j : Reg) (h : j ∉ r.writes ∨ s.locked j = true) :
    (State.finish r s).x j = s.x j := by
  induction r generalizing s with
  | advance => rfl
  | unresolvedGoto => simp only [State.finish, State.unresolvedGoto]; cases s.config.unresolvedGoto <;> rfl
  | setRem v r ih => exact ih (s.setRem v) h
  | write k v r ih =>
    have h' : j ∉ r.writes ∨ s.locked j = true := h.imp (fun h hj => h (List.mem_cons_of_mem _ hj)) id
    rcases s.finish_write_cases k v r with ⟨hk, e⟩ | ⟨hk, e⟩ <;> rw [e]
    · have hkj : k ≠ j := by
        rintro rfl
        rcases h with h | h
        · exact h List.mem_cons_self
        · simp [h] at hk
      rw [ih (s.setX k v) h', State.setX_x, if_neg hkj]
    · rcases s.emitThen_cases (s.softEvent .lockedWrite (BitVec.ofNat 32 k.val)) r with ⟨_, e⟩ | ⟨_, e⟩ <;> rw [e]
      · exact ih (s.record _) h'
      · rfl

theorem State.emitThen_x (s : State) (e : Event) (r : Rest) (j : Reg) (h : j ∉ r.writes ∨ s.locked j = true) :
    (s.emitThen e r).x j = s.x j := by
  rcases s.emitThen_cases e r with ⟨_, h'⟩ | ⟨_, h'⟩ <;> rw [h']
  · exact State.finish_x r (s.record e) j h
  · rfl

/-- What holds of the state itself and survives each effect holds after the end of an instruction. -/
theorem State.finish_induction {P : State → Prop} (hadv : ∀ s, P s → P s.advance) (hgoto : ∀ s, P s → P s.unresolvedGoto)
    (hrem : ∀ s v, P s → P (s.setRem v)) (hset : ∀ s k v, P s → P (s.setX k v)) (hrec : ∀ s e, P s → P (s.record e))
    (hst : ∀ s r, P s → P (s.stallWith r)) (r : Rest) (s : State) (h : P s) : P (State.finish r s) := by
  induction r generalizing s with
  | advance => exact hadv s h
  | unresolvedGoto => exact hgoto s h
  | setRem v r ih => exact ih _ (hrem s v h)
  | write k v r ih =>
    rcases s.finish_write_cases k v r with ⟨_, e⟩ | ⟨_, e⟩ <;> rw [e]
    · exact ih _ (hset s k v h)
    · rcases s.emitThen_cases (s.softEvent .lockedWrite (BitVec.ofNat 32 k.val)) r with ⟨_, e⟩ | ⟨_, e⟩ <;> rw [e]
      · exact ih _ (hrec s _ h)
      · exact hst _ r (hrec s _ h)

theorem State.unresolvedGoto_runState (s : State) :
    s.unresolvedGoto.runState = s.runState ∨ s.unresolvedGoto.runState = .faulted := by
  unfold State.unresolvedGoto
  cases s.config.unresolvedGoto <;> simp

/-- The end of an instruction leaves the run state, or faults. -/
theorem State.finish_runState (r : Rest) (s : State) :
    (State.finish r s).runState = s.runState ∨ (State.finish r s).runState = .faulted := by
  have hg : ∀ u : State, u.runState = s.runState ∨ u.runState = .faulted →
      u.unresolvedGoto.runState = s.runState ∨ u.unresolvedGoto.runState = .faulted := by
    rintro u (h | h) <;> rcases u.unresolvedGoto_runState with h' | h' <;> simp [h, h']
  exact State.finish_induction (P := fun u => u.runState = s.runState ∨ u.runState = .faulted)
    (fun _ h => h) hg (fun _ _ h => h) (fun _ _ _ h => h) (fun _ _ h => h) (fun _ _ h => h) r s (.inl rfl)

theorem State.emitThen_runState (s : State) (e : Event) (r : Rest) :
    (s.emitThen e r).runState = s.runState ∨ (s.emitThen e r).runState = .faulted := by
  rcases s.emitThen_cases e r with ⟨_, h⟩ | ⟨_, h⟩ <;> rw [h]
  · exact State.finish_runState r (s.record e)
  · exact .inl rfl

theorem State.acceptEvent_cases (s : State) :
    (s.stalled = none ∧ s.acceptEvent = s) ∨
    (∃ r, s.stalled = some r ∧ s.acceptEvent = State.finish r { s with stalled := none }) := by
  unfold State.acceptEvent
  cases h : s.stalled with
  | none => exact .inl ⟨rfl, rfl⟩
  | some r => exact .inr ⟨r, rfl, rfl⟩

/-! ### The branch (R120) -/

theorem State.branchTo_cases (s : State) (t : Int) :
    ((t < 0 ∨ (maxLine : Int) < t) ∧ s.branchTo t = s.raise .branchRange) ∨
    (0 ≤ t ∧ t ≤ maxLine ∧ s.branchTo t = { s with line := BitVec.ofInt 32 t, pc := 0 }) := by
  unfold State.branchTo
  split_ifs with h
  · exact .inl ⟨h, rfl⟩
  · exact .inr ⟨by omega, by omega, rfl⟩

/-- A branch to a line in range lands on that line. -/
theorem State.branchTo_line {s : State} {l : Word} (h : l.toNat ≤ maxLine) :
    s.branchTo l.toNat = { s with line := l, pc := 0 } := by
  rcases s.branchTo_cases l.toNat with ⟨h', _⟩ | ⟨_, _, h'⟩
  · omega
  · rw [h']
    simp

/-! ### Operand resolution (R115 to R117) -/

theorem toInt_eq_index {v : Word} {i : Nat} (hi : i < 32) : v.toInt = i ↔ v.toNat = i := by
  rw [BitVec.toInt_eq_toNat_cond]
  have := v.isLt
  split_ifs <;> omega

theorem resolveDirect_ok_iff {b : Byte} {i : Reg} : resolveDirect b = .ok i ↔ Names b i := by
  unfold resolveDirect Names
  split_ifs with h
  · simp [Fin.ext_iff]
  · have := i.isLt
    simp; omega

theorem resolveDirect_error_iff {b : Byte} {c : FaultCause} :
    resolveDirect b = .error c ↔ 32 ≤ b.toNat ∧ c = .regIndexRange := by
  unfold resolveDirect
  split_ifs with h
  · simp; omega
  · simp [eq_comm]; omega

theorem State.ptr_ok_iff {s : State} {b : Byte} {i : Reg} : s.ptr b = .ok i ↔ s.PointsTo b i := by
  unfold State.ptr resolveDirect State.PointsTo
  by_cases hb : b.toNat < 32
  · simp only [hb, dif_pos]
    split_ifs with h
    · simp [toInt_eq_index i.isLt, Fin.ext_iff]
    · have := i.isLt
      simp only [toInt_eq_index i.isLt, exists_true_left]
      constructor
      · intro h'; simp at h'
      · intro h'; omega
  · simp [hb]

theorem State.ptr_error_iff {s : State} {b : Byte} {c : FaultCause} :
    s.ptr b = .error c ↔ s.OperandFault (.indirect b) c := by
  unfold State.ptr resolveDirect State.OperandFault
  by_cases hb : b.toNat < 32
  · simp only [hb, dif_pos, exists_true_left]
    have hr : ((s.x ⟨b.toNat, hb⟩).toInt < 0 ∨ 32 ≤ (s.x ⟨b.toNat, hb⟩).toInt) ↔ ¬ (s.x ⟨b.toNat, hb⟩).toNat < 32 := by
      rw [BitVec.toInt_eq_toNat_cond]
      have := (s.x ⟨b.toNat, hb⟩).isLt
      split_ifs <;> omega
    rw [hr]
    split_ifs with h
    · simp [h]; omega
    · simp only [Except.error.injEq, h, not_false_eq_true, true_and, eq_comm (a := c)]
      constructor
      · exact .inr
      · rintro (⟨h', _⟩ | h')
        · omega
        · exact h'
  · simp [hb, eq_comm (a := c)]
    omega

theorem State.orRaise_cases (s : State) (r : Except FaultCause Reg) (k : Reg → Result) :
    (∃ c, r = .error c ∧ s.orRaise r k = .next (s.raise c)) ∨ (∃ i, r = .ok i ∧ s.orRaise r k = k i) := by
  cases r with
  | error c => exact .inl ⟨c, rfl, rfl⟩
  | ok i => exact .inr ⟨i, rfl, rfl⟩

theorem State.withPtr_cases (s : State) (p : Byte) (k : Reg → Result) :
    (∃ c, s.OperandFault (.indirect p) c ∧ s.withPtr p k = .next (s.raise c)) ∨
    (∃ i, s.PointsTo p i ∧ s.withPtr p k = k i) := by
  rcases s.orRaise_cases (s.ptr p) k with ⟨c, h, h'⟩ | ⟨i, h, h'⟩
  · exact .inl ⟨c, State.ptr_error_iff.mp h, h'⟩
  · exact .inr ⟨i, State.ptr_ok_iff.mp h, h'⟩

theorem State.withPtr_of_pointsTo {s : State} {p : Byte} {i : Reg} (h : s.PointsTo p i) (k : Reg → Result) :
    s.withPtr p k = k i := by
  unfold State.withPtr; rw [State.ptr_ok_iff.mpr h]; rfl

theorem State.withPtr_of_fault {s : State} {p : Byte} {c : FaultCause} (h : s.OperandFault (.indirect p) c)
    (k : Reg → Result) : s.withPtr p k = .next (s.raise c) := by
  unfold State.withPtr; rw [State.ptr_error_iff.mpr h]; rfl

theorem State.withPtr2_of_pointsTo {s : State} {p q : Byte} {i j : Reg} (hp : s.PointsTo p i) (hq : s.PointsTo q j)
    (k : Reg → Reg → Result) : s.withPtr2 p q k = k i j := by
  unfold State.withPtr2; rw [State.withPtr_of_pointsTo hp, State.withPtr_of_pointsTo hq]

theorem State.withPtr3_of_pointsTo {s : State} {p q r : Byte} {i j l : Reg} (hp : s.PointsTo p i) (hq : s.PointsTo q j)
    (hr : s.PointsTo r l) (k : Reg → Reg → Reg → Result) : s.withPtr3 p q r k = k i j l := by
  unfold State.withPtr3
  rw [State.withPtr_of_pointsTo hp, State.withPtr_of_pointsTo hq, State.withPtr_of_pointsTo hr]

/-- The cause of an operand fault is one of the two addressing causes. -/
theorem State.operandFault_cause {s : State} {o : RegOperand} {c : FaultCause} (h : s.OperandFault o c) :
    c = .regIndexRange ∨ c = .regPointerRange := by
  cases o with
  | direct b => exact .inl h.2
  | indirect b =>
    rcases h with ⟨_, h⟩ | ⟨_, _, h⟩
    · exact .inl h
    · exact .inr h

theorem State.withPtr2_cases (s : State) (p q : Byte) (k : Reg → Reg → Result) :
    (∃ c, (c = .regIndexRange ∨ c = .regPointerRange) ∧ s.withPtr2 p q k = .next (s.raise c)) ∨
    (∃ i j, s.PointsTo p i ∧ s.PointsTo q j ∧ s.withPtr2 p q k = k i j) := by
  unfold State.withPtr2
  rcases s.withPtr_cases p (fun i => s.withPtr q fun j => k i j) with ⟨c, h, e⟩ | ⟨i, hi, e⟩
  · exact .inl ⟨c, State.operandFault_cause h, e⟩
  · rw [e]
    rcases s.withPtr_cases q (fun j => k i j) with ⟨c, h, e⟩ | ⟨j, hj, e⟩
    · exact .inl ⟨c, State.operandFault_cause h, e⟩
    · exact .inr ⟨i, j, hi, hj, e⟩

theorem State.withPtr3_cases (s : State) (p q r : Byte) (k : Reg → Reg → Reg → Result) :
    (∃ c, (c = .regIndexRange ∨ c = .regPointerRange) ∧ s.withPtr3 p q r k = .next (s.raise c)) ∨
    (∃ i j l, s.PointsTo p i ∧ s.PointsTo q j ∧ s.PointsTo r l ∧ s.withPtr3 p q r k = k i j l) := by
  unfold State.withPtr3
  rcases s.withPtr_cases p (fun i => s.withPtr q fun j => s.withPtr r fun l => k i j l) with ⟨c, h, e⟩ | ⟨i, hi, e⟩
  · exact .inl ⟨c, State.operandFault_cause h, e⟩
  · rw [e]
    rcases s.withPtr2_cases q r (fun j l => k i j l) with ⟨c, h, e⟩ | ⟨j, l, hj, hl, e⟩
    · exact .inl ⟨c, h, e⟩
    · exact .inr ⟨i, j, l, hi, hj, hl, e⟩

/-- Resolution never refuses: it answers a next state when what follows does. -/
theorem State.withPtr_next (s : State) (p : Byte) {k : Reg → Result} (hk : ∀ i, ∃ t, k i = .next t) :
    ∃ t, s.withPtr p k = .next t := by
  rcases s.withPtr_cases p k with ⟨c, _, e⟩ | ⟨i, _, e⟩
  · exact ⟨_, e⟩
  · rw [e]; exact hk i

/-! ### The shared ends of instructions -/

theorem State.putExact_cases (s : State) (k : Reg) (v : Int) :
    (InI32 v ∧ s.putExact k v = s.put k (wrap32 v)) ∨
    (¬ InI32 v ∧ s.config.overflowMode = .fault ∧ s.putExact k v = s.raise .arithOverflow) ∨
    (¬ InI32 v ∧ s.config.overflowMode = .wrap ∧ s.putExact k v = s.put k (wrap32 v)) := by
  unfold State.putExact
  split_ifs with h
  · exact .inl ⟨h, rfl⟩
  · cases hm : s.config.overflowMode
    · exact .inr (.inl ⟨h, rfl, rfl⟩)
    · exact .inr (.inr ⟨h, rfl, rfl⟩)

theorem State.putBool_cases (s : State) (d : Bool) (k : Reg) (v : Word) :
    (d = true ∧ s.putBool d k v = s.put k v) ∨
    (d = false ∧ s.putBool d k v = s.emitThen (s.softEvent .boolDomain 0) .advance) := by
  cases d
  · exact .inr ⟨rfl, rfl⟩
  · exact .inl ⟨rfl, rfl⟩

theorem State.divide_cases (s : State) (a b : Int) (k : Reg) :
    (b = 0 ∧ s.divide a b k = s.raise .divZero) ∨
    (b ≠ 0 ∧ a = intMin ∧ b = -1 ∧ s.divide a b k = s.raise .divOverflow) ∨
    (b ≠ 0 ∧ ¬ (a = intMin ∧ b = -1) ∧
      s.divide a b k = State.finish (.write k (wrap32 (tdiv a b)) (.setRem (wrap32 (trem a b)) .advance)) s) := by
  unfold State.divide
  split_ifs with h h'
  · exact .inl ⟨h, rfl⟩
  · exact .inr (.inl ⟨h, h'.1, h'.2, rfl⟩)
  · exact .inr (.inr ⟨h, h', rfl⟩)

theorem State.getHidden_cases (s : State) (z : Bool) (d : Reg) :
    (z = true ∧ s.getHidden z d = State.finish (.write d s.rem (.setRem 0 .advance)) s) ∨
    (z = false ∧ s.getHidden z d = s.put d 0) := by
  cases z
  · exact .inr ⟨rfl, rfl⟩
  · exact .inl ⟨rfl, rfl⟩

theorem State.pushFrom_cases (s : State) (t : Reg) :
    (s.config.stackDepth ≤ s.stack.length ∧ s.pushFrom t = s.raise .stackOverflow) ∨
    (s.stack.length < s.config.stackDepth ∧
      s.pushFrom t = (s.setStack (s.stack ++ [s.x t])).put t 0) := by
  unfold State.pushFrom
  split_ifs with h
  · exact .inl ⟨h, rfl⟩
  · exact .inr ⟨by omega, rfl⟩

theorem State.popInto_cases (s : State) (t : Reg) :
    (s.stack = [] ∧ s.popInto t = s.raise .stackUnderflow) ∨
    (∃ st v, s.stack = st ++ [v] ∧ s.popInto t = (s.setStack st).put t v) := by
  rcases List.eq_nil_or_concat' s.stack with h | ⟨st, v, h⟩
  · exact .inl ⟨h, by simp [State.popInto, h]⟩
  · exact .inr ⟨st, v, h, by simp [State.popInto, h]⟩

theorem State.branchWhen_cases (s : State) (b : Bool) (t : Int) :
    (b = true ∧ s.branchWhen b t = s.branchTo t) ∨ (b = false ∧ s.branchWhen b t = s.advance) := by
  cases b
  · exact .inr ⟨rfl, rfl⟩
  · exact .inl ⟨rfl, rfl⟩

theorem State.hostCall_cases (s : State) (n a1 a2 : Word) :
    (n = 0 ∧ s.hostCall n a1 a2 =
      s.emitThen { kind := .print, code := if a1 = 0 then 0 else 1, line := s.line, data := a2 } .advance) ∨
    (n = 1 ∧ s.hostCall n a1 a2 = s.halt .exit a2) ∨
    (n ≠ 0 ∧ n ≠ 1 ∧ s.hostCall n a1 a2 = s.raise .badHostcall) := by
  unfold State.hostCall
  by_cases h : n = 0
  · exact .inl ⟨h, if_pos h⟩
  · rw [if_neg h]
    by_cases h' : n = 1
    · exact .inr (.inl ⟨h', if_pos h'⟩)
    · exact .inr (.inr ⟨h, h', if_neg h'⟩)

theorem State.unresolvedGoto_cases (s : State) :
    (s.config.unresolvedGoto = .retry ∧ s.unresolvedGoto = { s with pc := linePc s.line }) ∨
    (s.config.unresolvedGoto = .fallThrough ∧ s.unresolvedGoto = s.advance) ∨
    (s.config.unresolvedGoto = .fault ∧ s.unresolvedGoto = s.raise .gotoUnresolved) := by
  unfold State.unresolvedGoto
  cases h : s.config.unresolvedGoto
  · exact .inl ⟨rfl, rfl⟩
  · exact .inr (.inl ⟨rfl, rfl⟩)
  · exact .inr (.inr ⟨rfl, rfl⟩)

end Sys2Proof.Machine
end

