-- ==== Sys2Proof/Laws/Exec.lean ====
section
/-! SUPPORT. Everything an instruction can do, said once (`Shape`), with one inversion lemma per meaning and one for
`exec`. Frames and invariants go by cases on `Shape`. -/

namespace Sys2Proof.Machine

/-- The states an instruction can lead to from `s`. -/
inductive Shape (s : State) : Instr → State → Prop
  | fault {i c} (hc : c ≠ .none) : Shape s i (s.raise c)
  | write {i k} (v) (hk : s.MayWriteReg i k) (hi : (∀ p q, i ≠ .swp p q) ∧ ∀ p q d, i ≠ .div p q d := by exact ⟨nofun, nofun⟩) :
      Shape s i (s.put k v)
  | writeRem {i k} (v w) (hk : s.MayWriteReg i k) (hi : (∃ p q d, i = .div p q d) ∨ w = 0 ∧ ∃ k p, i = .get k p) :
      Shape s i (State.finish (.write k v (.setRem w .advance)) s)
  | boolDomain {i} (hi : (∃ p q d, i = .and p q d) ∨ (∃ p q d, i = .or p q d) ∨ ∃ p d, i = .not p d) :
      Shape s i (s.emitThen (s.softEvent .boolDomain 0) .advance)
  | swap {p q a b} (ha : s.PointsTo p a) (hb : s.PointsTo q b) :
      Shape s (.swp p q) (State.finish (.write a (s.x b) (.write b (s.x a) .advance)) s)
  | lock {p t} (ht : s.PointsTo p t) : Shape s (.lockr p) (s.toggleLock t).advance
  | stack {i k} (st v) (hk : s.MayWriteReg i k) (hi : (∃ p, i = .pushrts p) ∨ ∃ p, i = .poprfs p)
      (hl : st.length ≤ s.config.stackDepth ∨ st.length ≤ s.stack.length) :
      Shape s i ((s.setStack st).put k v)
  | branch {i} (t : Int) (h0 : 0 ≤ t) (h1 : t ≤ maxLine)
      (hi : (∃ p, i = .jmp p) ∨ (∃ p, i = .rjmp p) ∨ (∃ p q, i = .jeq p q) ∨ (∃ p q, i = .jneq p q) ∨ ∃ k, i = .goto k) :
      Shape s i { s with line := BitVec.ofInt 32 t, pc := 0 }
  | advance {i} (hi : (∃ p q, i = .jeq p q) ∨ (∃ p q, i = .jneq p q) ∨ ∃ k, i = .label k) : Shape s i s.advance
  | bind {k} (hk : (s.labelAt k).valid = false) : Shape s (.label k) (s.bindLabel k).advance
  | unresolved {k} (hk : (s.labelAt k).valid = false) :
      Shape s (.goto k) (s.emitThen (s.softEvent .unresolvedLabel (k.setWidth 32)) .unresolvedGoto)
  | print {p q r} (a v : Word) :
      Shape s (.vmcall p q r)
        (s.emitThen { kind := .print, code := if a = 0 then 0 else 1, line := s.line, data := v } .advance)
  | exit {p q r} (w) : Shape s (.vmcall p q r) (s.halt .exit w)
  | suspend : Shape s .brk { s with runState := .suspended }
  | hlt : Shape s .hlt (s.halt .hlt 0)
  | igl {op} : Shape s (.igl op) ({ s with illegalByte := op }.halt .illegal 4)

theorem addressing_cause {c : FaultCause} (h : c = .regIndexRange ∨ c = .regPointerRange) : c ≠ .none := by
  rcases h with rfl | rfl <;> decide

theorem next_inj {a b : State} (h : (.next a : Result) = .next b) : b = a := by
  injection h with h; exact h.symm

variable {s t : State}

theorem execLoad_shape {r : Byte} {imm : BitVec 16} (h : execLoad r imm s = .next t) : Shape s (.load r imm) t := by
  unfold execLoad at h
  rcases s.orRaise_cases (resolveDirect r) (fun k => .next (s.put k (imm.setWidth 32))) with
    ⟨c, hc, e⟩ | ⟨k, hk, e⟩ <;> rw [e] at h <;> obtain rfl := next_inj h
  · exact .fault (addressing_cause (.inl (resolveDirect_error_iff.mp hc).2))
  · exact .write _ (resolveDirect_ok_iff.mp hk)

/-- An instruction of three double-indirect operands ends in the fault of an operand or in its effect. -/
theorem State.withPtr3_shape {i : Instr} {p q r : Byte} {f : Reg → Reg → Reg → State}
    (h : s.withPtr3 p q r (fun a b c => .next (f a b c)) = .next t)
    (hf : ∀ a b c, s.PointsTo p a → s.PointsTo q b → s.PointsTo r c → Shape s i (f a b c)) : Shape s i t := by
  rcases s.withPtr3_cases p q r (fun a b c => .next (f a b c)) with ⟨c, hc, e⟩ | ⟨a, b, c, ha, hb, hc, e⟩ <;>
    rw [e] at h <;> obtain rfl := next_inj h
  · exact .fault (addressing_cause hc)
  · exact hf a b c ha hb hc

theorem State.withPtr2_shape {i : Instr} {p q : Byte} {f : Reg → Reg → State}
    (h : s.withPtr2 p q (fun a b => .next (f a b)) = .next t)
    (hf : ∀ a b, s.PointsTo p a → s.PointsTo q b → Shape s i (f a b)) : Shape s i t := by
  rcases s.withPtr2_cases p q (fun a b => .next (f a b)) with ⟨c, hc, e⟩ | ⟨a, b, ha, hb, e⟩ <;>
    rw [e] at h <;> obtain rfl := next_inj h
  · exact .fault (addressing_cause hc)
  · exact hf a b ha hb

theorem State.withPtr_shape {i : Instr} {p : Byte} {f : Reg → State}
    (h : s.withPtr p (fun a => .next (f a)) = .next t) (hf : ∀ a, s.PointsTo p a → Shape s i (f a)) : Shape s i t := by
  rcases s.withPtr_cases p (fun a => .next (f a)) with ⟨c, hc, e⟩ | ⟨a, ha, e⟩ <;>
    rw [e] at h <;> obtain rfl := next_inj h
  · exact .fault (addressing_cause (State.operandFault_cause hc))
  · exact hf a ha

theorem State.putExact_shape {i : Instr} {k : Reg} (v : Int) (hk : s.MayWriteReg i k)
    (hi : (∀ p q, i ≠ .swp p q) ∧ ∀ p q d, i ≠ .div p q d := by exact ⟨nofun, nofun⟩) : Shape s i (s.putExact k v) := by
  rcases s.putExact_cases k v with ⟨_, e⟩ | ⟨_, _, e⟩ | ⟨_, _, e⟩ <;> rw [e]
  · exact .write _ hk hi
  · exact .fault (by decide)
  · exact .write _ hk hi

theorem State.putBool_shape {i : Instr} {k : Reg} (d : Bool) (v : Word) (hk : s.MayWriteReg i k)
    (hi : (∃ p q d, i = .and p q d) ∨ (∃ p q d, i = .or p q d) ∨ ∃ p d, i = .not p d) :
    Shape s i (s.putBool d k v) := by
  rcases s.putBool_cases d k v with ⟨_, e⟩ | ⟨_, e⟩ <;> rw [e]
  · exact .write _ hk ⟨by rintro a b rfl; simp at hi, by rintro a b c rfl; simp at hi⟩
  · exact .boolDomain hi

theorem State.branchTo_shape {i : Instr} (v : Int)
    (hi : (∃ p, i = .jmp p) ∨ (∃ p, i = .rjmp p) ∨ (∃ p q, i = .jeq p q) ∨ (∃ p q, i = .jneq p q) ∨ ∃ k, i = .goto k) :
    Shape s i (s.branchTo v) := by
  rcases s.branchTo_cases v with ⟨_, e⟩ | ⟨h0, h1, e⟩ <;> rw [e]
  · exact .fault (by decide)
  · exact .branch v h0 h1 hi

theorem execAdd_shape {p q d : Byte} (h : execAdd p q d s = .next t) : Shape s (.add p q d) t :=
  State.withPtr3_shape h fun _ _ _ _ _ hk => State.putExact_shape _ hk

theorem execSub_shape {p q d : Byte} (h : execSub p q d s = .next t) : Shape s (.sub p q d) t :=
  State.withPtr3_shape h fun _ _ _ _ _ hk => State.putExact_shape _ hk

theorem execDiv_shape {p q d : Byte} (h : execDiv p q d s = .next t) : Shape s (.div p q d) t := by
  refine State.withPtr3_shape h fun i j k _ _ hk => ?_
  rcases s.divide_cases (s.x i).toInt (s.x j).toInt k with ⟨_, e⟩ | ⟨_, _, _, e⟩ | ⟨_, _, e⟩ <;> rw [e]
  · exact .fault (by decide)
  · exact .fault (by decide)
  · exact .writeRem _ _ hk (.inl ⟨p, q, d, rfl⟩)

theorem execEq_shape {p q d : Byte} (h : execEq p q d s = .next t) : Shape s (.eq p q d) t :=
  State.withPtr3_shape h fun _ _ _ _ _ hk => .write _ hk

theorem execNeq_shape {p q d : Byte} (h : execNeq p q d s = .next t) : Shape s (.neq p q d) t :=
  State.withPtr3_shape h fun _ _ _ _ _ hk => .write _ hk

theorem execAnd_shape {p q d : Byte} (h : execAnd p q d s = .next t) : Shape s (.and p q d) t :=
  State.withPtr3_shape h fun _ _ _ _ _ hk => State.putBool_shape _ _ hk (.inl ⟨p, q, d, rfl⟩)

theorem execOr_shape {p q d : Byte} (h : execOr p q d s = .next t) : Shape s (.or p q d) t :=
  State.withPtr3_shape h fun _ _ _ _ _ hk => State.putBool_shape _ _ hk (.inr (.inl ⟨p, q, d, rfl⟩))

theorem execNot_shape {p d : Byte} (h : execNot p d s = .next t) : Shape s (.not p d) t :=
  State.withPtr2_shape h fun _ _ _ hk => State.putBool_shape _ _ hk (.inr (.inr ⟨p, d, rfl⟩))

theorem execSwp_shape {p q : Byte} (h : execSwp p q s = .next t) : Shape s (.swp p q) t :=
  State.withPtr2_shape h fun _ _ ha hb => .swap ha hb

theorem execGet_shape {k p : Byte} (h : execGet k p s = .next t) : Shape s (.get k p) t := by
  have hd : ∀ (z : Bool) (d : Reg), s.PointsTo p d → Shape s (.get k p) (s.getHidden z d) := by
    intro z d hd
    rcases s.getHidden_cases z d with ⟨_, e⟩ | ⟨_, e⟩ <;> rw [e]
    · exact .writeRem _ _ hd (.inr ⟨rfl, k, p, rfl⟩)
    · exact .write _ hd
  unfold execGet at h
  split at h
  · exact State.withPtr_shape h fun d h' => hd _ d h'
  · exact State.withPtr2_shape h fun _ d _ h' => hd _ d h'

theorem execLockr_shape {p : Byte} (h : execLockr p s = .next t) : Shape s (.lockr p) t :=
  State.withPtr_shape h fun _ ht => .lock ht

theorem execPushrts_shape {p : Byte} (h : execPushrts p s = .next t) : Shape s (.pushrts p) t := by
  refine State.withPtr_shape h fun r hr => ?_
  rcases s.pushFrom_cases r with ⟨_, e⟩ | ⟨hl, e⟩ <;> rw [e]
  · exact .fault (by decide)
  · exact .stack _ _ hr (.inl ⟨p, rfl⟩) (.inl (by simp; omega))

theorem execPoprfs_shape {p : Byte} (h : execPoprfs p s = .next t) : Shape s (.poprfs p) t := by
  refine State.withPtr_shape h fun r hr => ?_
  rcases s.popInto_cases r with ⟨_, e⟩ | ⟨st, v, hs, e⟩ <;> rw [e]
  · exact .fault (by decide)
  · exact .stack _ _ hr (.inr ⟨p, rfl⟩) (.inr (by simp [hs]))

theorem execJmp_shape {p : Byte} (h : execJmp p s = .next t) : Shape s (.jmp p) t :=
  State.withPtr_shape h fun _ _ => State.branchTo_shape _ (.inl ⟨p, rfl⟩)

theorem execRjmp_shape {p : Byte} (h : execRjmp p s = .next t) : Shape s (.rjmp p) t :=
  State.withPtr_shape h fun _ _ => State.branchTo_shape _ (.inr (.inl ⟨p, rfl⟩))

theorem execJeq_shape {p q : Byte} (h : execJeq p q s = .next t) : Shape s (.jeq p q) t := by
  refine State.withPtr2_shape h fun i j _ _ => ?_
  rcases s.branchWhen_cases (s.x i == 1) (s.x j).toInt with ⟨_, e⟩ | ⟨_, e⟩ <;> rw [e]
  · exact State.branchTo_shape _ (.inr (.inr (.inl ⟨p, q, rfl⟩)))
  · exact .advance (.inl ⟨p, q, rfl⟩)

theorem execJneq_shape {p q : Byte} (h : execJneq p q s = .next t) : Shape s (.jneq p q) t := by
  refine State.withPtr2_shape h fun i j _ _ => ?_
  rcases s.branchWhen_cases (s.x i == 0) (s.x j).toInt with ⟨_, e⟩ | ⟨_, e⟩ <;> rw [e]
  · exact State.branchTo_shape _ (.inr (.inr (.inr (.inl ⟨p, q, rfl⟩))))
  · exact .advance (.inr (.inl ⟨p, q, rfl⟩))

theorem execLabel_shape {k : Byte} (h : execLabel k s = .next t) : Shape s (.label k) t := by
  unfold execLabel at h
  obtain rfl := next_inj h
  split_ifs with hv
  · exact .advance (.inr (.inr ⟨k, rfl⟩))
  · exact .bind (by simpa using hv)

theorem execGoto_shape {k : Byte} (h : execGoto k s = .next t) : Shape s (.goto k) t := by
  unfold execGoto at h
  obtain rfl := next_inj h
  split_ifs with hv
  · exact State.branchTo_shape _ (.inr (.inr (.inr (.inr ⟨k, rfl⟩))))
  · exact .unresolved (by simpa using hv)

theorem execVmcall_shape {p q r : Byte} (h : execVmcall p q r s = .next t) : Shape s (.vmcall p q r) t := by
  refine State.withPtr3_shape h fun i j k _ _ _ => ?_
  rcases s.hostCall_cases (s.x i) (s.x j) (s.x k) with ⟨_, e⟩ | ⟨_, e⟩ | ⟨_, _, e⟩ <;> rw [e]
  · exact .print _ _
  · exact .exit _
  · exact .fault (by decide)

/-- The inversion lemma of `exec`: if it answers a next state, that state has one of the shapes. -/
theorem exec_shape {i : Instr} (h : exec i s = .next t) : Shape s i t := by
  cases i with
  | hlt => obtain rfl := next_inj h; exact .hlt
  | load r imm => exact execLoad_shape h
  | add p q d => exact execAdd_shape h
  | sub p q d => exact execSub_shape h
  | div p q d => exact execDiv_shape h
  | jmp p => exact execJmp_shape h
  | rjmp p => exact execRjmp_shape h
  | vmcall p q r => exact execVmcall_shape h
  | eq p q d => exact execEq_shape h
  | jeq p q => exact execJeq_shape h
  | neq p q d => exact execNeq_shape h
  | jneq p q => exact execJneq_shape h
  | swp p q => exact execSwp_shape h
  | and p q d => exact execAnd_shape h
  | or p q d => exact execOr_shape h
  | not p d => exact execNot_shape h
  | get k p => exact execGet_shape h
  | lockr p => exact execLockr_shape h
  | pushrts p => exact execPushrts_shape h
  | poprfs p => exact execPoprfs_shape h
  | brk => obtain rfl := next_inj h; exact .suspend
  | label k => exact execLabel_shape h
  | goto k => exact execGoto_shape h
  | igl op => obtain rfl := next_inj h; exact .igl

end Sys2Proof.Machine
end

