-- ==== Sys2Proof/Laws/Cycle.lean ====
section
/-! SUPPORT. What a step can do, said once: a transaction of the host, a wait, or an instruction; and what a fetch answers. -/

namespace Sys2Proof.Machine

variable {s t : State}

theorem State.slotBytes_length (s : State) (fa : Nat) : (s.slotBytes fa).length = min 4 (s.progLen - fa) := by
  simp [State.slotBytes]

theorem State.slotBytes_get (s : State) (fa k : Nat) (h : k < (s.slotBytes fa).length) :
    (s.slotBytes fa)[k] = s.progByte (fa + k) := by
  simp [State.slotBytes]

/-- A fetch that answers an instruction: it is well-formed, its bytes lie inside the program and are the ones read. -/
theorem State.fetch_ok {i : Instr} (h : s.fetch = .ok i) :
    i.WellFormed ∧ s.fetchAddress + i.operandCount < s.progLen ∧
    ∀ k (hk : k < (i.opcode :: i.operandBytes).length),
      (i.opcode :: i.operandBytes)[k] = s.progByte (s.fetchAddress + k) := by
  unfold State.fetch at h
  split at h
  · rename_i j hd
    obtain rfl := Except.ok.inj h
    obtain ⟨hw, hp⟩ := decode_ok hd
    have hl := hp.length_le
    rw [State.slotBytes_length] at hl
    simp only [List.length_cons] at hl
    refine ⟨hw, by unfold Instr.operandCount; omega, fun k hk => ?_⟩
    rw [hp.getElem hk, State.slotBytes_get]
  · exact absurd h (by simp)

/-- A fetch that fails names the first byte at or beyond the end of the program. -/
theorem State.fetch_error {a : Nat} (h : s.fetch = .error a) :
    a = max s.fetchAddress s.progLen ∧ a < s.fetchAddress + 4 := by
  unfold State.fetch at h
  split at h
  · exact absurd h (by simp)
  · rename_i k hd
    obtain rfl := Except.error.inj h
    obtain ⟨hk, hk4⟩ := decode_error hd
    rw [State.slotBytes_length] at hk
    omega

theorem runStep_cases (h : runStep s = .next t) :
    (s.progLen ≤ s.pc.toNat ∧ t = s.halt .ended 0) ∨
    (s.pc.toNat < s.progLen ∧ ∃ a, s.fetch = .error a ∧
      t = ({ s with pc := BitVec.ofNat 32 a } : State).raise .programOverrun) ∨
    (s.pc.toNat < s.progLen ∧ ∃ i, s.fetch = .ok i ∧
      exec i { s with pc := BitVec.ofNat 32 (s.fetchAddress + 1 + i.operandCount) } = .next t) := by
  unfold runStep at h
  split_ifs at h with hp
  · exact .inl ⟨hp, next_inj h⟩
  · refine .inr ?_
    split at h
    · rename_i a ha
      exact .inl ⟨by omega, a, ha, next_inj h⟩
    · rename_i i hi
      exact .inr ⟨by omega, i, hi, h⟩

theorem coreStep_cases (h : coreStep s = .next t) :
    (s.runState = .running ∧ s.stalled = none ∧ runStep s = .next t) ∨
    (∃ r, s.runState = .running ∧ s.stalled = some r ∧ s.evReady = true ∧ t = State.finish r { s with stalled := none }) ∨
    (s.runState = .running ∧ s.stalled ≠ none ∧ s.evReady = false ∧ t = s) ∨
    (s.runState ≠ .running ∧ t = s) := by
  unfold coreStep at h
  cases hs : s.runState <;> rw [hs] at h
  case running =>
    cases hr : s.stalled with
    | none => rw [hr] at h; exact .inl ⟨rfl, rfl, h⟩
    | some r =>
      rw [hr] at h
      cases he : s.evReady
      · exact .inr (.inr (.inl ⟨rfl, by simp, rfl, by rw [he] at h; exact next_inj h⟩))
      · rw [he] at h
        refine .inr (.inl ⟨r, rfl, rfl, rfl, ?_⟩)
        rw [next_inj h, if_pos rfl, State.acceptEvent, hr, ← hs, ← he]
  all_goals exact .inr (.inr (.inr ⟨by decide, next_inj h⟩))

/-- A step is a transaction of the host or a step of the core. -/
theorem step_cases (h : step s = .next t) :
    (∃ a, s.inbox.head? = some a ∧ a ≠ .pass ∧ hostStep a { s with inbox := s.inbox.tail } = .next t) ∨
    ((s.inbox.head? = none ∨ s.inbox.head? = some .pass) ∧ coreStep { s with inbox := s.inbox.tail } = .next t) := by
  unfold step cycle at h
  split at h
  · rename_i hi
    refine .inr ⟨by simp [hi], ?_⟩
    rw [hi]
    simp only [List.tail_nil]
    rw [← hi]
    exact h
  · rename_i a rest hi
    simp only [hi, List.head?_cons, List.tail_cons]
    by_cases ha : a = .pass
    · subst ha; exact .inr ⟨.inr rfl, h⟩
    · exact .inl ⟨a, rfl, ha, h⟩

theorem State.hostLoad_cases {bs : List Byte} (h : s.hostLoad bs = .next t) :
    (s.runState = .idle ∧ bs.length ≤ maxProgLen ∧
      t = { s with prog := Memory.ofBytes 0 bs, progLen := bs.length }) ∨
    (s.runState ≠ .idle ∧ t = s) := by
  unfold State.hostLoad at h
  split_ifs at h with hi hl
  · exact .inl ⟨hi, by omega, next_inj h⟩
  · exact .inr ⟨hi, next_inj h⟩

theorem State.hostPreload_cases (s : State) (i : Reg) (v : Word) (l : Bool) :
    (s.runState = .idle ∧
      s.hostPreload i v l = { s with regs := s.regs.set i v i.isLt, locks := s.locks.set i l i.isLt }) ∨
    (s.runState ≠ .idle ∧ s.hostPreload i v l = s) := by
  unfold State.hostPreload
  split_ifs with h
  · exact .inl ⟨h, rfl⟩
  · exact .inr ⟨h, rfl⟩

theorem State.hostStart_cases (s : State) :
    (s.runState = .idle ∧ s.hostStart = { s with runState := .running }) ∨ (s.runState ≠ .idle ∧ s.hostStart = s) := by
  unfold State.hostStart
  split_ifs with h
  · exact .inl ⟨h, rfl⟩
  · exact .inr ⟨h, rfl⟩

theorem State.hostResume_cases (s : State) :
    (s.runState = .suspended ∧ s.hostResume = { s.advance with runState := .running }) ∨
    (s.runState ≠ .suspended ∧ s.hostResume = s) := by
  unfold State.hostResume
  split_ifs with h
  · exact .inl ⟨h, rfl⟩
  · exact .inr ⟨h, rfl⟩

theorem State.hostAccept_cases (s : State) :
    (∃ r, s.runState = .running ∧ s.stalled = some r ∧ s.hostAccept = State.finish r { s with stalled := none }) ∨
    ((s.runState ≠ .running ∨ s.stalled = none) ∧ s.hostAccept = s) := by
  unfold State.hostAccept
  split_ifs with h
  · rcases s.acceptEvent_cases with ⟨hr, e⟩ | ⟨r, hr, e⟩
    · exact .inr ⟨.inr hr, e⟩
    · exact .inl ⟨r, h, hr, e⟩
  · exact .inr ⟨.inl h, rfl⟩

end Sys2Proof.Machine
end

