-- ==== Sys2Proof/Laws/Environment.lean ====
section
/-! SUPPORT. Instructions neither read nor change program memory and the host's schedule: executing with both replaced is
executing, then replacing both. -/

namespace Sys2Proof.Machine

/-- The state with another program memory and another schedule. -/
def State.within (s : State) (m : Memory) (r : List HostAction) : State := { s with prog := m, inbox := r }

/-- The same on an answer. -/
def answerWithin (a : Result) (m : Memory) (r : List HostAction) : Result :=
  match a with
  | .next t => .next (t.within m r)
  | .fault f => .fault f
  | .refused f => .refused f

variable (s : State) (m : Memory) (r : List HostAction)

@[simp] theorem State.within_x : (s.within m r).x = s.x := rfl
@[simp] theorem State.within_locked : (s.within m r).locked = s.locked := rfl
@[simp] theorem State.within_rem : (s.within m r).rem = s.rem := rfl
@[simp] theorem State.within_stack : (s.within m r).stack = s.stack := rfl
@[simp] theorem State.within_labelAt : (s.within m r).labelAt = s.labelAt := rfl
@[simp] theorem State.within_line : (s.within m r).line = s.line := rfl
@[simp] theorem State.within_config : (s.within m r).config = s.config := rfl
@[simp] theorem State.within_evReady : (s.within m r).evReady = s.evReady := rfl
@[simp] theorem State.within_ptr : (s.within m r).ptr = s.ptr := rfl

@[simp] theorem State.within_raise (c : FaultCause) : (s.within m r).raise c = (s.raise c).within m r := rfl
@[simp] theorem State.within_advance : (s.within m r).advance = s.advance.within m r := rfl
@[simp] theorem State.within_halt (c : HaltCause) (w : Word) : (s.within m r).halt c w = (s.halt c w).within m r := rfl
@[simp] theorem State.within_setRem (v : Word) : (s.within m r).setRem v = (s.setRem v).within m r := rfl
@[simp] theorem State.within_setStack (st : List Word) : (s.within m r).setStack st = (s.setStack st).within m r := rfl
@[simp] theorem State.within_record (e : Event) : (s.within m r).record e = (s.record e).within m r := rfl
@[simp] theorem State.within_softEvent (c : SoftCause) (d : Word) : (s.within m r).softEvent c d = s.softEvent c d := rfl
@[simp] theorem State.within_setX (k : Reg) (v : Word) : (s.within m r).setX k v = (s.setX k v).within m r := rfl
@[simp] theorem State.within_stallWith (q : Rest) : (s.within m r).stallWith q = (s.stallWith q).within m r := rfl
@[simp] theorem State.within_toggleLock (t : Reg) : (s.within m r).toggleLock t = (s.toggleLock t).within m r := rfl
@[simp] theorem State.within_bindLabel (k : Byte) : (s.within m r).bindLabel k = (s.bindLabel k).within m r := rfl

@[simp] theorem State.within_branchTo (t : Int) : (s.within m r).branchTo t = (s.branchTo t).within m r := by
  unfold State.branchTo
  split_ifs <;> rfl

@[simp] theorem State.within_unresolvedGoto : (s.within m r).unresolvedGoto = s.unresolvedGoto.within m r := by
  unfold State.unresolvedGoto
  rw [State.within_config]
  cases s.config.unresolvedGoto <;> rfl

@[simp] theorem State.within_finish (q : Rest) : State.finish q (s.within m r) = (State.finish q s).within m r := by
  induction q generalizing s with
  | advance => rfl
  | unresolvedGoto => exact s.within_unresolvedGoto m r
  | setRem v q ih => exact ih (s.setRem v)
  | write k v q ih =>
    cases hk : s.locked k <;> cases he : s.evReady <;> simp [State.finish, hk, he, ih]

@[simp] theorem State.within_emitThen (e : Event) (q : Rest) :
    (s.within m r).emitThen e q = (s.emitThen e q).within m r := by
  cases he : s.evReady <;> simp [State.emitThen, he]

@[simp] theorem State.within_put (k : Reg) (v : Word) : (s.within m r).put k v = (s.put k v).within m r :=
  s.within_finish m r _

@[simp] theorem State.within_putExact (k : Reg) (v : Int) : (s.within m r).putExact k v = (s.putExact k v).within m r := by
  unfold State.putExact
  rw [State.within_config]
  split_ifs
  · simp
  · cases s.config.overflowMode <;> simp

@[simp] theorem State.within_divide (a b : Int) (k : Reg) : (s.within m r).divide a b k = (s.divide a b k).within m r := by
  unfold State.divide
  split_ifs <;> simp

@[simp] theorem State.within_putBool (d : Bool) (k : Reg) (v : Word) :
    (s.within m r).putBool d k v = (s.putBool d k v).within m r := by
  cases d <;> simp [State.putBool]

@[simp] theorem State.within_getHidden (z : Bool) (d : Reg) :
    (s.within m r).getHidden z d = (s.getHidden z d).within m r := by
  cases z <;> simp [State.getHidden]

@[simp] theorem State.within_pushFrom (t : Reg) : (s.within m r).pushFrom t = (s.pushFrom t).within m r := by
  unfold State.pushFrom
  rw [State.within_config, State.within_stack]
  split_ifs <;> simp

@[simp] theorem State.within_popInto (t : Reg) : (s.within m r).popInto t = (s.popInto t).within m r := by
  unfold State.popInto
  rw [State.within_stack]
  cases s.stack.getLast? <;> simp

@[simp] theorem State.within_branchWhen (b : Bool) (t : Int) :
    (s.within m r).branchWhen b t = (s.branchWhen b t).within m r := by
  cases b <;> simp [State.branchWhen]

@[simp] theorem State.within_hostCall (n a b : Word) : (s.within m r).hostCall n a b = (s.hostCall n a b).within m r := by
  unfold State.hostCall
  by_cases h : n = 0
  · rw [if_pos h, if_pos h]; simp
  · rw [if_neg h, if_neg h]; split_ifs <;> simp

theorem State.within_withPtr (p : Byte) {k k' : Reg → Result} (h : ∀ i, k' i = answerWithin (k i) m r) :
    (s.within m r).withPtr p k' = answerWithin (s.withPtr p k) m r := by
  unfold State.withPtr State.orRaise
  rw [State.within_ptr]
  cases s.ptr p with
  | error c => rfl
  | ok i => exact h i

theorem State.within_withPtr2 (p q : Byte) {k k' : Reg → Reg → Result} (h : ∀ i j, k' i j = answerWithin (k i j) m r) :
    (s.within m r).withPtr2 p q k' = answerWithin (s.withPtr2 p q k) m r :=
  s.within_withPtr m r p fun i => s.within_withPtr m r q fun j => h i j

theorem State.within_withPtr3 (p q d : Byte) {k k' : Reg → Reg → Reg → Result}
    (h : ∀ i j l, k' i j l = answerWithin (k i j l) m r) :
    (s.within m r).withPtr3 p q d k' = answerWithin (s.withPtr3 p q d k) m r :=
  s.within_withPtr m r p fun i => s.within_withPtr m r q fun j => s.within_withPtr m r d fun l => h i j l

/-- Execution commutes with replacing program memory and schedule. -/
theorem exec_within (i : Instr) : exec i (s.within m r) = answerWithin (exec i s) m r := by
  cases i with
  | hlt | brk | igl op => rfl
  | load b imm =>
    simp only [exec, execLoad, State.orRaise]
    cases resolveDirect b with
    | error c => rfl
    | ok k => simp [answerWithin]
  | label k =>
    simp only [exec, execLabel, State.within_labelAt]
    by_cases h : (s.labelAt k).valid = true <;> simp [h, answerWithin]
  | goto k =>
    simp only [exec, execGoto, State.within_labelAt]
    by_cases h : (s.labelAt k).valid = true <;> simp [h, answerWithin]
  | get k p =>
    simp only [exec, execGet, State.within_config]
    cases s.config.getIdMode
    · exact s.within_withPtr m r _ fun d => by simp [answerWithin]
    · exact s.within_withPtr2 m r _ _ fun i d => by simp [answerWithin]
  | jmp p | rjmp p | lockr p | pushrts p | poprfs p => exact s.within_withPtr m r _ fun i => by simp [answerWithin]
  | jeq p q | jneq p q | swp p q | not p q => exact s.within_withPtr2 m r _ _ fun i j => by simp [answerWithin]
  | add p q d | sub p q d | div p q d | vmcall p q d | eq p q d | neq p q d | and p q d | or p q d =>
    exact s.within_withPtr3 m r _ _ _ fun i j l => by simp [answerWithin]

/-- A core step commutes with it too, where the fetch gives the same instruction. -/
theorem coreStep_within (h : (s.within m r).fetch = s.fetch) : coreStep (s.within m r) = answerWithin (coreStep s) m r := by
  have hrun : runStep (s.within m r) = answerWithin (runStep s) m r := by
    unfold runStep
    rw [h]
    by_cases hp : s.progLen ≤ s.pc.toNat
    · rw [if_pos hp, if_pos (show (s.within m r).progLen ≤ (s.within m r).pc.toNat from hp)]; rfl
    · rw [if_neg hp, if_neg (show ¬ (s.within m r).progLen ≤ (s.within m r).pc.toNat from hp)]
      cases s.fetch with
      | error a => rfl
      | ok i => exact exec_within { s with pc := BitVec.ofNat 32 (s.fetchAddress + 1 + i.operandCount) } m r i
  unfold coreStep
  show (match s.runState with
    | .running =>
      match s.stalled with
      | none => runStep (s.within m r)
      | some _ => .next (if s.evReady then (s.within m r).acceptEvent else s.within m r)
    | .idle | .suspended | .halted | .faulted => .next (s.within m r)) = _
  cases s.runState with
  | running =>
    cases hr : s.stalled with
    | none => exact hrun
    | some q =>
      have ha : (s.within m r).acceptEvent = s.acceptEvent.within m r := by
        simp only [State.acceptEvent, hr]
        rw [show (s.within m r).stalled = some q from hr]
        exact State.within_finish { s with stalled := none } m r q
      rw [ha]
      cases s.evReady <;> rfl
  | idle | suspended | halted | faulted => rfl

end Sys2Proof.Machine
end

