-- ==== Sys2Proof/Laws/PerInstr.lean ====
section
/-! SUPPORT. The family SlotShape of facts about each instruction as syntax (spec/30_encoding.md R80, R81, R88, R90): its
encoding is one slot of four bytes, at most three of them operand bytes, and its padding is zero. -/

namespace Sys2Proof.Laws.SlotShape

/-- R80, R88, R90. -/
def Statement (i : Instr) : Prop :=
  (encode i).length = 4 ∧ i.operandCount ≤ 3 ∧ ∀ b ∈ (encode i).drop (1 + i.operandCount), b = 0

theorem hlt : Statement .hlt := by simp [Statement, encode, Instr.operandCount, Instr.operandBytes]
theorem load (r : Byte) (imm : BitVec 16) : Statement (.load r imm) := by
  simp [Statement, encode, Instr.operandCount, Instr.operandBytes]
theorem add (p q s : Byte) : Statement (.add p q s) := by simp [Statement, encode, Instr.operandCount, Instr.operandBytes]
theorem sub (p q s : Byte) : Statement (.sub p q s) := by simp [Statement, encode, Instr.operandCount, Instr.operandBytes]
theorem div (p q s : Byte) : Statement (.div p q s) := by simp [Statement, encode, Instr.operandCount, Instr.operandBytes]
theorem jmp (p : Byte) : Statement (.jmp p) := by simp [Statement, encode, Instr.operandCount, Instr.operandBytes]
theorem rjmp (p : Byte) : Statement (.rjmp p) := by simp [Statement, encode, Instr.operandCount, Instr.operandBytes]
theorem vmcall (p q s : Byte) : Statement (.vmcall p q s) := by simp [Statement, encode, Instr.operandCount, Instr.operandBytes]
theorem eq (p q s : Byte) : Statement (.eq p q s) := by simp [Statement, encode, Instr.operandCount, Instr.operandBytes]
theorem jeq (p q : Byte) : Statement (.jeq p q) := by simp [Statement, encode, Instr.operandCount, Instr.operandBytes]
theorem neq (p q s : Byte) : Statement (.neq p q s) := by simp [Statement, encode, Instr.operandCount, Instr.operandBytes]
theorem jneq (p q : Byte) : Statement (.jneq p q) := by simp [Statement, encode, Instr.operandCount, Instr.operandBytes]
theorem swp (p q : Byte) : Statement (.swp p q) := by simp [Statement, encode, Instr.operandCount, Instr.operandBytes]
theorem and (p q s : Byte) : Statement (.and p q s) := by simp [Statement, encode, Instr.operandCount, Instr.operandBytes]
theorem or (p q s : Byte) : Statement (.or p q s) := by simp [Statement, encode, Instr.operandCount, Instr.operandBytes]
theorem not (p q : Byte) : Statement (.not p q) := by simp [Statement, encode, Instr.operandCount, Instr.operandBytes]
theorem get (k p : Byte) : Statement (.get k p) := by simp [Statement, encode, Instr.operandCount, Instr.operandBytes]
theorem lockr (p : Byte) : Statement (.lockr p) := by simp [Statement, encode, Instr.operandCount, Instr.operandBytes]
theorem pushrts (p : Byte) : Statement (.pushrts p) := by simp [Statement, encode, Instr.operandCount, Instr.operandBytes]
theorem poprfs (p : Byte) : Statement (.poprfs p) := by simp [Statement, encode, Instr.operandCount, Instr.operandBytes]
theorem brk : Statement .brk := by simp [Statement, encode, Instr.operandCount, Instr.operandBytes]
theorem label (k : Byte) : Statement (.label k) := by simp [Statement, encode, Instr.operandCount, Instr.operandBytes]
theorem goto (k : Byte) : Statement (.goto k) := by simp [Statement, encode, Instr.operandCount, Instr.operandBytes]
theorem igl (op : Byte) : Statement (.igl op) := by simp [Statement, encode, Instr.operandCount, Instr.operandBytes]

end Sys2Proof.Laws.SlotShape
end

