-- ==== Sys2Proof/Laws/Run.lean ====
section
/-! SUPPORT. Runs of the machine: one step at a time, and the induction that carries an invariant along a run. -/

namespace Sys2Proof.Machine

theorem run_zero (s : State) : Sys2Proof.core.run 0 s = .next s := rfl

theorem run_succ {s u : State} (n : Nat) (h : step s = .next u) :
    Sys2Proof.core.run (n + 1) s = Sys2Proof.core.run n u := by
  have h' : Sys2Proof.core.step s = .next u := h
  simp only [Host.Core.run, h']

/-- What every step keeps, every run keeps. -/
theorem run_keeps {P : State → Prop} (hP : ∀ s t, P s → step s = .next t → P t) (n : Nat) {s t : State} (hs : P s)
    (h : Sys2Proof.core.run n s = .next t) : P t := by
  induction n generalizing s with
  | zero => exact next_inj (h : (.next s : Result) = .next t) ▸ hs
  | succ n ih =>
    cases hu : step s with
    | next u => exact ih (hP s u hs hu) (run_succ n hu ▸ h)
    | fault r => exact nomatch r
    | refused r =>
      have hu' : Sys2Proof.core.step s = .refused r := hu
      simp only [Host.Core.run, hu'] at h
      exact nomatch h

end Sys2Proof.Machine
end

