-- ==== Sys2Proof/Tests/Slice0.lean ====
section
/-! SUPPORT. Tests, and witnesses for the hypotheses of the statements. Expected results are the spec's own: the encodings of spec/30_encoding.md R81, R84 and the vectors of
spec/95_test_vectors.md, whose id stands in each test's comment. -/

namespace Sys2Proof.Tests

open Sys2Proof.Machine

/-- A core RUNNING at a line, with a slot's bytes there (the program ends after them) and some registers preset. -/
def slotState (l : Nat) (bytes : List Byte) (regs : List (Reg × Word)) : State :=
  { regs.foldl (fun s rv => s.setX rv.1 rv.2) State.reset with
    prog := Memory.ofBytes (4 * l) bytes
    progLen := 4 * l + bytes.length
    line := BitVec.ofNat 32 l
    pc := BitVec.ofNat 32 (4 * l)
    runState := .running }

/-- "Pointer setup" of the vectors: r10, r11, r12 name r0, r1, r2. -/
def pointers : List (Reg × Word) := [(10, 0), (11, 1), (12, 2)]

/-- The test of the state a step leads to. -/
def ends (s : State) (f : State → Bool) : Bool :=
  match step s with
  | .next t => f t
  | .fault _ | .refused _ => false

/-- A soft-error event of the vectors, `SOFT(code, line, data)`. -/
def soft (code : BitVec 4) (line data : Word) : Event := { kind := .softError, code := code, line := line, data := data }

/-! ### WellFormed: the one check, and a term it refuses -/

theorem test_igl_of_mapped_byte_refused : ¬ (Instr.igl 0x02).WellFormed := by decide
theorem test_igl_of_unmapped_byte_accepted : (Instr.igl 0x18).WellFormed ∧ (Instr.igl 0x07).WellFormed := by decide

/-! ### Decoding: one word per constructor, written out from R81 and R84 -/

theorem test_decode_hlt : decode [0b00000000, 0x12, 0x34, 0x56] = .ok .hlt := by decide
theorem test_decode_load : decode [0b00000001, 0x00, 0x01, 0xF4] = .ok (.load 0 500) := by decide
theorem test_decode_add : decode [0b00000010, 0x02, 0x03, 0x04] = .ok (.add 2 3 4) := by decide
theorem test_decode_sub : decode [0b00000011, 0x0A, 0x0B, 0x0C] = .ok (.sub 10 11 12) := by decide
theorem test_decode_div : decode [0b00000100, 0x0A, 0x0B, 0x0C] = .ok (.div 10 11 12) := by decide
theorem test_decode_jmp : decode [0b00000101, 0x09, 0x00, 0x00] = .ok (.jmp 9) := by decide
theorem test_decode_rjmp : decode [0b00000110, 0x09, 0x00, 0x00] = .ok (.rjmp 9) := by decide
theorem test_decode_byte_7 : decode [0b00000111, 0x01, 0x02, 0x03] = .ok (.igl 7) := by decide
theorem test_decode_vmcall : decode [0b00001000, 0x07, 0x06, 0x05] = .ok (.vmcall 7 6 5) := by decide
theorem test_decode_eq : decode [0b00001001, 0x0A, 0x0B, 0x0C] = .ok (.eq 10 11 12) := by decide
theorem test_decode_jeq : decode [0b00001010, 0x0E, 0x0F, 0x00] = .ok (.jeq 14 15) := by decide
theorem test_decode_neq : decode [0b00001011, 0x0A, 0x0B, 0x0C] = .ok (.neq 10 11 12) := by decide
theorem test_decode_jneq : decode [0b00001100, 0x0E, 0x0F, 0x00] = .ok (.jneq 14 15) := by decide
theorem test_decode_swp : decode [0b00001101, 0x0A, 0x0B, 0x00] = .ok (.swp 10 11) := by decide
theorem test_decode_and : decode [0b00001110, 0x0A, 0x0B, 0x0C] = .ok (.and 10 11 12) := by decide
theorem test_decode_or : decode [0b00001111, 0x0A, 0x0B, 0x0C] = .ok (.or 10 11 12) := by decide
theorem test_decode_not : decode [0b00010000, 0x0A, 0x0B, 0x77] = .ok (.not 10 11) := by decide
theorem test_decode_get : decode [0b00010001, 0x20, 0x0B, 0x00] = .ok (.get 32 11) := by decide
theorem test_decode_lockr : decode [0b00010010, 0x0C, 0x00, 0x00] = .ok (.lockr 12) := by decide
theorem test_decode_pushrts : decode [0b00010011, 0x0C, 0x00, 0x00] = .ok (.pushrts 12) := by decide
theorem test_decode_poprfs : decode [0b00010100, 0x0C, 0x00, 0x00] = .ok (.poprfs 12) := by decide
theorem test_decode_brk : decode [0b00010101] = .ok .brk := by decide
theorem test_decode_label : decode [0b00010110, 0x03, 0x00, 0x00] = .ok (.label 3) := by decide
theorem test_decode_goto : decode [0b00010111, 0x07, 0x00, 0x00] = .ok (.goto 7) := by decide
theorem test_decode_igl : decode [0b00011000] = .ok (.igl 0x18) ∧ decode [0b11111111] = .ok (.igl 0xFF) := by decide
theorem test_decode_truncated : decode [0x01, 0x00] = .error (.missingByte 2) ∧ decode [] = .error (.missingByte 0) := by decide
theorem test_encode_add : encode (.add 2 3 4) = [0x02, 0x02, 0x03, 0x04] := by decide
theorem test_encode_load : encode (.load 0 0x01F4) = [0x01, 0x00, 0x01, 0xF4] := by decide
theorem test_table_word : decodeTableWord 32 0x010001F4 = some (.load 0 500) := by decide

/-! ### The placing of a word and the first step after reset -/

theorem test_placed_word_runs : ends (State.reset.withFetchWord 32 0x010001F4) (fun t => t.x 0 == 500 && t.line == 1) := by
  decide

/-! ### Instructions: the spec's vectors -/

/-- L1, L2. -/
theorem test_load : ends (slotState 0 [0x01, 0x1F, 0xFF, 0xFF] []) (fun t => t.x 31 == 65535 && t.pc == 4) := by decide
/-- L4. -/
theorem test_load_index : ends (slotState 0 [0x01, 0x20, 0x00, 0x01] [])
    (fun t => t.faultCause == .regIndexRange && t.faultOffset == 4 && t.status == 0x104) := by decide
/-- Program 1, line 4: r5 = r0 + r1. -/
theorem test_add : ends (slotState 0 [0x02, 0x02, 0x03, 0x04] [(0, 500), (1, 500), (3, 1), (4, 5)]) (fun t => t.x 5 == 1000) := by
  decide
/-- A3. -/
theorem test_add_overflow : ends (slotState 0 [0x02, 0x0A, 0x0B, 0x0C] (pointers ++ [(0, 0x7FFFFFFF), (1, 1)]))
    (fun t => t.faultCause == .arithOverflow && t.x 2 == 0 && t.status == 0x704) := by decide
/-- B1. -/
theorem test_sub : ends (slotState 0 [0x03, 0x0A, 0x0B, 0x0C] (pointers ++ [(0, 3), (1, 5)])) (fun t => t.x 2 == 0xFFFFFFFE) := by
  decide
/-- B6. -/
theorem test_sub_no_overflow : ends (slotState 0 [0x03, 0x0A, 0x0B, 0x0C] (pointers ++ [(0, 0xFFFFFFFF), (1, 0x7FFFFFFF)]))
    (fun t => t.x 2 == 0x80000000) := by decide
/-- D4. -/
theorem test_div : ends (slotState 0 [0x04, 0x0A, 0x0B, 0x0C] (pointers ++ [(0, 0xFFFFFFF9), (1, 2)]))
    (fun t => t.x 2 == 0xFFFFFFFD && t.rem == 0xFFFFFFFF) := by decide
/-- D12. -/
theorem test_div_overflow : ends (slotState 0 [0x04, 0x0A, 0x0B, 0x0C] (pointers ++ [(0, 0x80000000), (1, 0xFFFFFFFF)]))
    (fun t => t.faultCause == .divOverflow && t.faultOffset == 4) := by decide
/-- J1. -/
theorem test_jmp : ends (slotState 0 [0x05, 0x09, 0x00, 0x00] [(9, 8), (8, 5)]) (fun t => t.line == 5 && t.pc == 0) := by decide
/-- J3. -/
theorem test_jmp_negative : ends (slotState 2 [0x05, 0x09, 0x00, 0x00] [(9, 8), (8, 0xFFFFFFFF)])
    (fun t => t.faultCause == .branchRange && t.faultLine == 2 && t.faultOffset == 10) := by decide
/-- J9. -/
theorem test_rjmp : ends (slotState 8 [0x06, 0x09, 0x00, 0x00] [(9, 8), (8, 0xFFFFFFFF)]) (fun t => t.line == 7 && t.pc == 0) := by
  decide
/-- J11. -/
theorem test_rjmp_too_far : ends (slotState 8 [0x06, 0x09, 0x00, 0x00] [(9, 8), (8, 0x7FFFFFFF)])
    (fun t => t.faultCause == .branchRange && t.faultOffset == 34) := by decide
/-- V2. -/
theorem test_vmcall_print : ends (slotState 0 [0x08, 0x07, 0x06, 0x05] [(7, 3), (6, 2), (5, 1), (1, 0xFFFFFFF9)])
    (fun t => t.events == [{ kind := .print, code := 0, line := 0, data := 0xFFFFFFF9 }] && t.line == 1) := by decide
/-- V4. -/
theorem test_vmcall_exit : ends (slotState 0 [0x08, 0x07, 0x06, 0x05] [(7, 3), (6, 2), (5, 1), (3, 1), (1, 2)])
    (fun t => t.status == 0x13 && t.exitCode == 2 && t.line == 0 && t.pc == 4) := by decide
/-- E3. -/
theorem test_eq : ends (slotState 0 [0x09, 0x0A, 0x0B, 0x0C] (pointers ++ [(0, 0xFFFFFFFF), (1, 0xFFFFFFFF), (2, 9)]))
    (fun t => t.x 2 == 1) := by decide
/-- J12. -/
theorem test_jeq : ends (slotState 12 [0x0A, 0x0E, 0x0F, 0x00] [(14, 4), (15, 5), (4, 1), (5, 14)])
    (fun t => t.line == 14 && t.pc == 0) := by decide
/-- J16: the target pointer is resolved although the branch is not taken. -/
theorem test_jeq_target_resolved : ends (slotState 12 [0x0A, 0x0E, 0x0F, 0x00] [(14, 4), (15, 40), (4, 0), (5, 14)])
    (fun t => t.faultCause == .regPointerRange && t.faultOffset == 51) := by decide
/-- E7. -/
theorem test_neq : ends (slotState 0 [0x0B, 0x0A, 0x0B, 0x0C] (pointers ++ [(0, 7), (1, 0xFFFFFFF9)])) (fun t => t.x 2 == 1) := by
  decide
/-- J19. -/
theorem test_jneq : ends (slotState 12 [0x0C, 0x0E, 0x0F, 0x00] [(14, 4), (15, 5), (5, 3)]) (fun t => t.line == 3 && t.pc == 0) := by
  decide
/-- J21. -/
theorem test_jneq_two : ends (slotState 12 [0x0C, 0x0E, 0x0F, 0x00] [(14, 4), (15, 5), (4, 2), (5, 3)])
    (fun t => t.line == 13 && t.pc == 52) := by decide
/-- K1. -/
theorem test_swp : ends (slotState 0 [0x0D, 0x0A, 0x0B, 0x00] (pointers ++ [(0, 4), (1, 9)])) (fun t => t.x 0 == 9 && t.x 1 == 4) := by
  decide
/-- K2: one register locked. -/
theorem test_swp_locked : ends ((slotState 0 [0x0D, 0x0A, 0x0B, 0x00] (pointers ++ [(0, 4), (1, 9)])).toggleLock 0)
    (fun t => t.x 0 == 4 && t.x 1 == 4 && t.events == [soft 1 0 0]) := by decide
/-- G4. -/
theorem test_and : ends (slotState 0 [0x0E, 0x0A, 0x0B, 0x0C] (pointers ++ [(0, 1), (1, 1), (2, 9)])) (fun t => t.x 2 == 1) := by
  decide
/-- G5. -/
theorem test_and_domain : ends (slotState 0 [0x0E, 0x0A, 0x0B, 0x0C] (pointers ++ [(0, 1), (1, 5), (2, 9)]))
    (fun t => t.x 2 == 9 && t.events == [soft 2 0 0] && t.pc == 4) := by decide
/-- H2. -/
theorem test_or : ends (slotState 0 [0x0F, 0x0A, 0x0B, 0x0C] (pointers ++ [(0, 0), (1, 1), (2, 9)])) (fun t => t.x 2 == 1) := by
  decide
/-- N4: in place. -/
theorem test_not : ends (slotState 0 [0x10, 0x0A, 0x0A, 0x00] (pointers ++ [(0, 1)])) (fun t => t.x 0 == 0 && t.events == []) := by
  decide
/-- Q1. -/
theorem test_get : ends ((slotState 0 [0x11, 0x00, 0x0B, 0x00] pointers).setRem 2) (fun t => t.x 1 == 2 && t.rem == 0) := by decide
/-- Q8 under GET_ID_MODE = indirect. -/
theorem test_get_indirect :
    ends { (slotState 0 [0x11, 0x0A, 0x0B, 0x00] pointers).setRem 2 with config := { Config.spec with getIdMode := .indirect } }
      (fun t => t.x 1 == 2 && t.rem == 0) := by decide
/-- Q9. -/
theorem test_lockr : ends (slotState 0 [0x12, 0x0C, 0x00, 0x00] pointers) (fun t => t.locked 2 && t.x 2 == 0) := by decide
/-- S6: a locked target is pushed and keeps its content. -/
theorem test_pushrts_locked : ends ((slotState 0 [0x13, 0x0C, 0x00, 0x00] (pointers ++ [(2, 3)])).toggleLock 2)
    (fun t => t.stack == [0, 3] && t.x 2 == 3 && t.events == [soft 1 0 2]) := by decide
/-- S2. -/
theorem test_poprfs : ends ((slotState 0 [0x14, 0x0C, 0x00, 0x00] pointers).setStack [0, 3]) (fun t => t.x 2 == 3 && t.stack == [0]) := by
  decide
/-- S4. -/
theorem test_poprfs_empty : ends ((slotState 1 [0x14, 0x0C, 0x00, 0x00] pointers).setStack [])
    (fun t => t.faultCause == .stackUnderflow && t.faultLine == 1 && t.faultOffset == 6) := by decide
/-- Y1, the suspension. -/
theorem test_brk : ends (slotState 4 [0x15, 0x00, 0x00, 0x00] [])
    (fun t => t.status == 0x02 && t.lineOut == some 4 && t.pcOut == some 17) := by decide
/-- T1. -/
theorem test_label : ends (slotState 8 [0x16, 0x03, 0x00, 0x00] [])
    (fun t => t.labelAt 3 == { valid := true, loc := 8 } && t.line == 9 && t.pc == 36) := by decide
/-- T6. -/
theorem test_goto_sentinel : ends (slotState 30 [0x17, 0x00, 0x00, 0x00] []) (fun t => t.line == 0 && t.pc == 0) := by decide
/-- T7 under retry. -/
theorem test_goto_unresolved : ends (slotState 4 [0x17, 0x09, 0x00, 0x00] [])
    (fun t => t.line == 4 && t.pc == 16 && t.events == [soft 3 4 9] && t.runState == .running) := by decide
/-- Y3. -/
theorem test_hlt : ends (slotState 5 [0x00, 0x00, 0x00, 0x00] [])
    (fun t => t.status == 0x03 && t.exitCode == 0 && t.lineOut == some 5 && t.pcOut == some 21) := by decide
/-- Y6. -/
theorem test_igl : ends (slotState 2 [0x07, 0x01, 0x02, 0x03] [])
    (fun t => t.status == 0x0007001B && t.exitCode == 4 && t.pcOut == some 9) := by decide

/-! ### The cycle and the ports -/

/-- X4. -/
theorem test_truncated_slot : ends (slotState 1 [0x01] []) (fun t => t.status == 0x904 && t.faultLine == 1 && t.faultOffset == 5) := by
  decide
/-- J5, the second step: the fetch address 2^33 - 4 does not fit 32 bits. -/
theorem test_fetch_beyond_end : ends { slotState 0 [0x00] [] with line := 0x7FFFFFFF, pc := 0 }
    (fun t => t.faultCause == .programOverrun && t.faultLine == 0x7FFFFFFF && t.faultOffset == 0xFFFFFFFC) := by decide
/-- X1. -/
theorem test_empty_program : ends { State.reset with runState := .running } (fun t => t.status == 0x0B && t.pc == 0) := by decide
/-- Y1, the resume. -/
theorem test_resume : ends { slotState 4 [0x15] [] with runState := .suspended, pc := 17, inbox := [.resume] }
    (fun t => t.runState == .running && t.line == 5 && t.pc == 20) := by decide
/-- K4 with `ev_ready` low (R250, R126): the first event is presented, RUNNING, still in the slot. -/
theorem test_swp_waits :
    ends { ((slotState 0 [0x0D, 0x0A, 0x0B, 0x00] (pointers ++ [(0, 4), (1, 9)])).toggleLock 0).toggleLock 1 with evReady := false }
      (fun t => t.evPort == some (soft 1 0 0) && t.events.length == 1 && t.line == 0 && t.status == 1) := by decide
/-- The same, the first acceptance: the second event is presented. -/
theorem test_swp_accepted_once :
    ends { ((slotState 0 [0x0D, 0x0A, 0x0B, 0x00] (pointers ++ [(0, 4), (1, 9)])).toggleLock 0).toggleLock 1 with
        evReady := false, events := [soft 1 0 0], stalled := some (.write 1 4 .advance), inbox := [.accept] }
      (fun t => t.evPort == some (soft 1 0 1) && t.events.length == 2 && t.line == 0 && t.x 1 == 9) := by decide
/-- T7 under fault, `ev_ready` low (R206, R250): the core is RUNNING until the acceptance, then FAULTED. -/
theorem test_goto_fault_waits :
    ends { slotState 4 [0x17, 0x09] [] with evReady := false, config := { Config.spec with unresolvedGoto := .fault } }
      (fun t => t.status == 1 && t.evPort == some (soft 3 4 9)) ∧
    ends { slotState 4 [0x17, 0x09] [] with
        pc := 18, stalled := some .unresolvedGoto, config := { Config.spec with unresolvedGoto := .fault } }
      (fun t => t.status == 0xB04 && t.faultLine == 4 && t.faultOffset == 18 && t.evPort == none) := by decide
/-- Program 7: the debug port. -/
theorem test_debug_port :
    (({ State.reset with rem := 2 } : State).toggleLock 17).dbgRead 17 = some (0, true) ∧
    ({ State.reset with rem := 2 } : State).dbgRead 32 = some (2, false) ∧ State.reset.dbgRead 33 = some (0, false) := by decide

/-! ### Witnesses: states and operands that meet the hypotheses of the statements, at the ends of their ranges -/

open Sys2Proof.Claims

/-- Three register operands resolve to r0, r1, r2. -/
abbrev threePtrs (s : State) : Prop := s.PointsTo 10 0 ∧ s.PointsTo 11 1 ∧ s.PointsTo 12 2

/-- A core RUNNING an ADD-shaped slot, with r0 and r1 preset. -/
def two (a b : Word) : State := slotState 0 [0x02, 0x0A, 0x0B, 0x0C] (pointers ++ [(0, a), (1, b)])

/-- A reset core in a given run state, with given causes. -/
def stopped (r : RunState) (h : HaltCause) (f : FaultCause) (b : Byte) (code : Word) : State :=
  { State.reset with runState := r, haltCause := h, faultCause := f, illegalByte := b, exitCode := code }

theorem loc_le_of_reset_labels {s : State} (h : s.labels = State.reset.labels) (k : Byte) : (s.labelAt k).loc.toNat ≤ maxLine := by
  rw [show s.labelAt k = State.reset.labelAt k by unfold State.labelAt; rw [h], State.reset_labelAt]
  split_ifs <;> exact Nat.zero_le _
theorem invalid_loc_of_reset_labels {s : State} (h : s.labels = State.reset.labels) (k : Byte) (_ : (s.labelAt k).valid = false) :
    (s.labelAt k).loc = 0 := by
  rw [show s.labelAt k = State.reset.labelAt k by unfold State.labelAt; rw [h], State.reset_labelAt]
  split_ifs <;> rfl

theorem stopped_inv {r : RunState} {h : HaltCause} {f : FaultCause} {b : Byte} {code : Word}
    (hs : (stopped r h f b code).StatusOk) (hr : r ≠ .suspended) : (stopped r h f b code).Inv where
  program := ⟨rfl, by simp [stopped, State.reset], Nat.zero_le _⟩
  counters := ⟨Nat.zero_le _, fun _ => ⟨rfl, rfl⟩, fun _ _ => .inr rfl, fun h => absurd h hr⟩
  tables := ⟨(by decide : 1 ≤ State.reset.config.stackDepth), (by decide : State.reset.stack.length ≤ State.reset.config.stackDepth),
    rfl, loc_le_of_reset_labels rfl, invalid_loc_of_reset_labels rfl⟩
  status := hs
  events := ⟨by simp [stopped, State.reset], fun h => absurd rfl h⟩
  stall := ⟨fun h => absurd rfl h, fun _ h => nomatch h⟩

/-- What `running_inv` leaves to be decided on a concrete state. -/
abbrev Ordinary (s : State) : Prop :=
  Memory.wf s.prog = true ∧ (∀ c ∈ s.prog, c.1 < s.progLen) ∧ s.progLen ≤ maxProgLen ∧ s.line.toNat ≤ maxLine ∧
  s.runState = .running ∧ s.pc.toNat = s.line.toNat * 4 ∧ 1 ≤ s.config.stackDepth ∧ s.stack.length ≤ s.config.stackDepth ∧
  (s.haltCause = .hlt ∧ s.exitCode = 0) ∧ s.faultCause = .none ∧ (s.faultLine = 0 ∧ s.faultOffset = 0) ∧ s.illegalByte = 0

theorem running_inv {s : State} (hl : s.labels = State.reset.labels) (he : s.events = []) (hs : s.stalled = none)
    (h : Ordinary s) : s.Inv := by
  obtain ⟨h1, h2, h3, h4, h5, h6, h7, h8, h9, h10, h11, h12⟩ := h
  have h0 : s.labelAt 0 = State.reset.labelAt 0 := by unfold State.labelAt; rw [hl]
  refine ⟨⟨h1, h2, h3⟩, ⟨h4, by simp [h5], fun _ _ => .inl h6, by simp [h5]⟩, ⟨h7, h8, h0.trans (State.reset_labelAt 0),
    loc_le_of_reset_labels hl, invalid_loc_of_reset_labels hl⟩, ⟨fun _ => h9, by simp [h10, h5], fun _ => h11, fun _ => h12,
    by simp [h9.1], fun _ => h9.2⟩, ⟨by simp [he], by simp [hs]⟩, ⟨by simp [hs], by simp [hs]⟩⟩

theorem witness_DecodeEncodeAgree :
    (Instr.add 0 31 255).WellFormed ∧ (Instr.load 0 0xFFFF).WellFormed ∧ (Instr.igl 7).WellFormed ∧ (Instr.igl 0xFF).WellFormed := by
  decide
theorem witness_StepRunsDecodedInstruction :
    ∃ s : State, CoreActs s ∧ s.pc.toNat < s.progLen ∧ decode (slotAt s) = .ok (.load 31 0xFFFF) ∧
      fetchAt s + (Instr.load 31 0xFFFF).operandCount < s.progLen :=
  ⟨slotState 1 [0x01, 0x1F, 0xFF, 0xFF] [], by decide⟩
theorem witness_EndOfProgramHalts : ∃ s : State, CoreActs s ∧ s.progLen = s.pc.toNat :=
  ⟨{ slotState 0 [0x15] [] with pc := 1 }, by decide⟩
theorem witness_FetchBeyondEndFaults : ∃ s : State, CoreActs s ∧ s.pc.toNat < s.progLen ∧ s.progLen = fetchAt s :=
  ⟨{ slotState 0 [0x05, 0, 0, 0] [] with line := 1, pc := 0 }, by decide⟩
theorem witness_TruncatedSlotFaults :
    ∀ n ∈ [1, 2, 3], let s := slotState 1 (List.replicate n 0x01) []
      CoreActs s ∧ s.pc.toNat < s.progLen ∧ fetchAt s < s.progLen ∧ (Instr.load 0 0).WellFormed ∧
        (Instr.load 0 0).opcode = s.progByte (fetchAt s) ∧ s.progLen ≤ fetchAt s + (Instr.load 0 0).operandCount := by decide
theorem witness_UnmappedByteHaltsIllegal :
    ∀ b ∈ [(7 : Byte), 24, 255], let s := slotState 0 [b] []
      CoreActs s ∧ s.pc.toNat < s.progLen ∧ fetchAt s < s.progLen ∧
        (s.progByte (fetchAt s) = 7 ∨ 24 ≤ (s.progByte (fetchAt s)).toNat) := by decide
theorem witness_OtherProgramBytesHaveNoEffect :
    ∃ (s t : State) (m : Memory), CoreActs s ∧ s.fetch = .ok (.jmp 9) ∧ m ≠ s.prog ∧
      (∀ k, k ≤ (Instr.jmp 9).operandCount → Memory.read m (fetchAt s + k) = s.progByte (fetchAt s + k)) ∧ step s = .next t :=
  ⟨slotState 0 [0x05, 0x09, 0x01, 0x02] [(9, 8), (8, 5)], _, [(0, 0x05), (1, 0x09), (2, 0x77)], by decide, by decide, by decide,
    by decide, rfl⟩
theorem witness_WaitingCoreHoldsItsState :
    (∃ s : State, s.inbox = [] ∧ s.runState = .running ∧ s.stalled ≠ none ∧ s.evReady = false) ∧
    (∃ s : State, s.inbox = [] ∧ s.runState ≠ .running) :=
  ⟨⟨{ two 0 0 with stalled := some .advance, evReady := false }, by decide⟩, ⟨State.reset, by decide⟩⟩
theorem witness_AcceptanceContinuesInstruction :
    ∀ r ∈ [Rest.advance, .unresolvedGoto, .setRem 5 .advance, .write 1 7 .advance], ∃ s : State,
      s.runState = .running ∧ s.stalled = some r ∧ s.inbox = [] ∧ s.evReady = true :=
  fun r _ => ⟨{ two 0 0 with stalled := some r }, rfl, rfl, rfl, rfl⟩
theorem witness_WaitingChangesOnlyTheMoment :
    ∃ s t u : State, CoreActs s ∧ s.evReady = false ∧ exec (.swp 10 11) s = .next t ∧
      exec (.swp 10 11) { s with evReady := true } = .next u ∧ t.stalled ≠ none :=
  ⟨{ ((two 4 9).toggleLock 0).toggleLock 1 with evReady := false }, _, _, by decide, by decide, rfl, rfl, by decide⟩
theorem witness_PassIsTheCoresStep :
    ∃ s t : State, s.inbox = [.pass, .reset] ∧ step { s with inbox := [] } = .next t ∧ t.x 2 = 7 :=
  ⟨{ two 3 4 with inbox := [.pass, .reset] }, _, by decide, rfl, by decide⟩
theorem witness_StepKeepsInvariant :
    ∃ s t : State, s.Inv ∧ step s = .next t ∧ t.x 2 = 7 :=
  ⟨two 3 4, _, running_inv rfl rfl rfl (by decide), rfl, by decide⟩
/-- A SWP of the locked r0 and of r1 that waits for the acceptance of its first event. -/
def swapWaiting : State :=
  { (slotState 0 [0x0D, 0x0A, 0x0B, 0x00] (pointers ++ [(0, 4), (1, 9)])).toggleLock 0 with
    pc := 3, events := [soft 1 0 0], stalled := some (.write 1 4 .advance) }
theorem witness_StepKeepsInvariant_waiting :
    ∃ t, swapWaiting.Inv ∧ swapWaiting.stalled ≠ none ∧ step swapWaiting = .next t ∧ t.x 1 = 4 ∧ t.line = 1 := by
  have h : ((slotState 0 [0x0D, 0x0A, 0x0B, 0x00] (pointers ++ [(0, 4), (1, 9)])).toggleLock 0).Inv :=
    running_inv rfl rfl rfl (by decide)
  have hl : (soft 1 0 0).Legal := ⟨by decide, .inl (by decide)⟩
  refine ⟨_, ⟨⟨h.program.canonical, h.program.inside, h.program.bounded⟩,
    ⟨h.counters.line_le, fun h => (nomatch h), fun _ h => (nomatch h), fun h => (nomatch h)⟩,
    ⟨h.tables.capacity_pos, h.tables.depth_le, h.tables.sentinel, h.tables.loc_le, h.tables.invalid_loc⟩,
    ⟨h.status.not_halted, h.status.fault_iff, h.status.not_faulted, h.status.not_illegal, h.status.illegal, h.status.clean⟩,
    ⟨fun e he => List.mem_singleton.mp he ▸ hl, fun _ => by decide⟩,
    ⟨fun _ => rfl, fun r hr => ⟨.swp 10 11, by decide, ?_, by decide⟩⟩⟩, by decide, rfl, by decide, by decide⟩
  obtain rfl := Option.some.inj hr
  exact .inr ⟨0, 1, by decide, by decide, by decide⟩
theorem witness_RunStateTransitions :
    (∃ s t, step s = .next t ∧ s.runState = .halted ∧ t.runState = .idle) ∧
    (∃ s t, step s = .next t ∧ s.runState = .idle ∧ t.runState = .running) ∧
    (∃ s t, step s = .next t ∧ s.runState = .suspended ∧ t.runState = .running) ∧
    (∃ s t, step s = .next t ∧ s.runState = .running ∧ t.runState = .suspended) ∧
    (∃ s t, step s = .next t ∧ s.runState = .running ∧ t.runState = .halted) ∧
    (∃ s t, step s = .next t ∧ s.runState = .running ∧ t.runState = .faulted) :=
  ⟨⟨{ State.reset with runState := .halted, inbox := [.reset] }, _, rfl, rfl, rfl⟩,
    ⟨{ State.reset with inbox := [.start] }, _, rfl, rfl, rfl⟩,
    ⟨{ State.reset with runState := .suspended, inbox := [.resume] }, _, rfl, rfl, rfl⟩,
    ⟨slotState 0 [0x15] [], _, rfl, rfl, rfl⟩, ⟨slotState 0 [0x00] [], _, rfl, rfl, rfl⟩,
    ⟨slotState 0 [0x01] [], _, rfl, rfl, rfl⟩⟩
theorem witness_EndedRunNeverChanges :
    (∃ s : State, s.Ended ∧ s.runState = .halted ∧ HostAction.reset ∉ s.inbox ∧ HostAction.start ∈ s.inbox) ∧
    (∃ s : State, s.Ended ∧ s.runState = .faulted ∧ HostAction.reset ∉ s.inbox ∧ HostAction.resume ∈ s.inbox) :=
  ⟨⟨{ State.reset with runState := .halted, inbox := [.load [1], .start] }, by decide⟩,
    ⟨{ State.reset with runState := .faulted, inbox := [.resume, .preload 0 1 true] }, by decide⟩⟩
theorem witness_ProgramIsConstantDuringRun :
    ∃ s t, step s = .next t ∧ s.inbox.head? ≠ some .reset ∧ s.runState ≠ .idle :=
  ⟨{ two 3 4 with inbox := [.load [1, 2]] }, _, rfl, by decide, by decide⟩
theorem witness_OperandFaultsInByteOrder :
    (∃ s : State, regOperands s.config.getIdMode (.add 10 32 40) = [.indirect 10] ++ .indirect 32 :: [.indirect 40] ∧
      (∀ o ∈ [RegOperand.indirect 10], s.Resolves o) ∧ s.OperandFault (.indirect 32) .regIndexRange) ∧
    (∃ s : State, regOperands s.config.getIdMode (.jmp 10) = [] ++ .indirect 10 :: [] ∧
      s.OperandFault (.indirect 10) .regPointerRange) ∧
    (∃ s : State, regOperands s.config.getIdMode (.load 32 0) = [] ++ .direct 32 :: [] ∧
      s.OperandFault (.direct 32) .regIndexRange) := by
  refine ⟨⟨two 0 0, rfl, fun o ho => ?_, .inl (by decide)⟩, ⟨(two 0 0).setX 10 32, rfl, .inr ?_⟩, ⟨two 0 0, rfl, ?_⟩⟩
  · obtain rfl := List.mem_singleton.mp ho
    exact ⟨0, by decide⟩
  · decide
  · exact ⟨by decide, rfl⟩
theorem witness_FaultsArePrecise :
    (∃ s t, exec (.load 32 5) s = .next t ∧ s.runState ≠ .faulted ∧ t.runState = .faulted) ∧
    (∃ s t, exec (.goto 9) s = .next t ∧ s.runState ≠ .faulted ∧ t.runState = .faulted) :=
  ⟨⟨two 0 0, _, rfl, by decide, by decide⟩,
    ⟨{ two 0 0 with config := { Config.spec with unresolvedGoto := .fault } }, _, rfl, by decide, by decide⟩⟩
theorem witness_SlotInvariant :
    ∀ i ∈ [Instr.jmp 10, .rjmp 10, .jeq 11 10, .jneq 10 10, .jeq 10 10, .goto 0, .goto 1, .add 10 11 12, .label 3, .lockr 10],
      ∃ t, exec i (two 0 1) = .next t ∧ (two 0 1).runState = .running ∧ (two 0 1).stalled = none ∧ t.runState = .running := by
  intro i hi
  simp only [List.mem_cons, List.not_mem_nil, or_false] at hi
  rcases hi with rfl | rfl | rfl | rfl | rfl | rfl | rfl | rfl | rfl | rfl <;> exact ⟨_, rfl, by decide, by decide, by decide⟩
theorem witness_UnresolvedGotoNeverEnds :
    ∃ s : State, CoreActs s ∧ s.evReady = true ∧ s.config.unresolvedGoto = .retry ∧ s.pc.toNat < s.progLen ∧
      fetchAt s + 1 < s.progLen ∧ s.progByte (fetchAt s) = 0x17 ∧ s.progByte (fetchAt s + 1) = 9 ∧ (s.labelAt 9).valid = false :=
  ⟨slotState 4 [0x17, 0x09] [], by decide⟩
theorem witness_LabelTableRefinesSequence :
    ∃ s t : State, exec (.label 3) s = .next t ∧ s.labelAt 3 = { valid := true, loc := 0x7FFFFFFF } ∧
      ∀ k, boundLine s k = firstMatch [(0, 0), (3, 0x7FFFFFFF), (0, 5)] k := by
  refine ⟨{ State.reset with line := 0x7FFFFFFF }.bindLabel 3, _, rfl, by decide, fun k => ?_⟩
  have h : ({ State.reset with line := 0x7FFFFFFF } : State).labelAt k = State.reset.labelAt k := rfl
  by_cases h3 : k = 3
  · subst h3; rfl
  by_cases h0 : k = 0
  · subst h0; rfl
  have e3 : ((3 : Byte) == k) = false := beq_eq_false_iff_ne.mpr fun e => h3 e.symm
  have e0 : ((0 : Byte) == k) = false := beq_eq_false_iff_ne.mpr fun e => h0 e.symm
  have hf : firstMatch [(0, 0), (3, 0x7FFFFFFF), (0, 5)] k = none := by
    unfold firstMatch List.find?
    rw [e0]
    unfold List.find?
    rw [e3]
    unfold List.find?
    rw [e0]
    rfl
  have hv : ((({ State.reset with line := 0x7FFFFFFF } : State).bindLabel 3).labelAt k).valid = false := by
    rw [State.bindLabel_labelAt, if_neg fun e => h3 e.symm, h, State.reset_labelAt, if_neg h0]
  rw [hf, boundLine, if_neg (by rw [hv]; decide)]

theorem witness_LoadWritesImmediate : Names 0 0 ∧ Names 31 31 := by decide
theorem witness_AddSubWriteExactResult :
    threePtrs (two 0x7FFFFFFE 1) ∧
    (0x7FFFFFFF : Word).toInt = ((two 0x7FFFFFFE 1).x 0).toInt + ((two 0x7FFFFFFE 1).x 1).toInt ∧
    threePtrs (two 0x80000001 1) ∧
    (0x80000000 : Word).toInt = ((two 0x80000001 1).x 0).toInt - ((two 0x80000001 1).x 1).toInt := by
  decide
theorem witness_AddSubOverflow :
    (threePtrs (two 0x7FFFFFFF 1) ∧ ¬ InI32 (((two 0x7FFFFFFF 1).x 0).toInt + ((two 0x7FFFFFFF 1).x 1).toInt) ∧
      (two 0x7FFFFFFF 1).config.overflowMode = .fault ∧
      (2 ^ 32 : Int) ∣ ((two 0x7FFFFFFF 1).x 0).toInt + ((two 0x7FFFFFFF 1).x 1).toInt - (0x80000000 : Word).toInt) ∧
    (threePtrs (two 0x80000000 1) ∧ ¬ InI32 (((two 0x80000000 1).x 0).toInt - ((two 0x80000000 1).x 1).toInt) ∧
      (2 ^ 32 : Int) ∣ ((two 0x80000000 1).x 0).toInt - ((two 0x80000000 1).x 1).toInt - (0x7FFFFFFF : Word).toInt) ∧
    (∃ s : State, threePtrs s ∧ s.config.overflowMode = .wrap ∧ ¬ InI32 ((s.x 0).toInt + (s.x 1).toInt)) :=
  ⟨by decide, by decide,
    { two 0x7FFFFFFF 1 with config := { Config.spec with overflowMode := .wrap } }, by decide⟩
theorem witness_DivTruncates :
    threePtrs (two 0x80000000 1) ∧ ((two 0x80000000 1).x 1).toInt ≠ 0 ∧
    ¬ (((two 0x80000000 1).x 0).toInt = intMin ∧ ((two 0x80000000 1).x 1).toInt = -1) := by decide
theorem witness_DivFaults :
    (threePtrs (two 1 0) ∧ ((two 1 0).x 1).toInt = 0) ∧
    (threePtrs (two 0x80000000 0xFFFFFFFF) ∧ ((two 0x80000000 0xFFFFFFFF).x 0).toInt = intMin ∧
      ((two 0x80000000 0xFFFFFFFF).x 1).toInt = -1) := by decide
theorem witness_EqNeqWriteTruthValue : threePtrs (two 5 5) ∧ threePtrs (two 5 6) := by decide
theorem witness_BooleanTruthTables :
    (∀ a b : Bool, let s := two (if a then 1 else 0) (if b then 1 else 0)
      threePtrs s ∧ s.x 0 = (if a then 1 else 0) ∧ s.x 1 = (if b then 1 else 0)) ∧
    (∀ a : Bool, let s := two (if a then 1 else 0) 9
      s.PointsTo 10 0 ∧ s.PointsTo 11 1 ∧ s.x 0 = (if a then 1 else 0) ∧ s.x 1 = 9) := by decide
theorem witness_BooleanDomainSoftError :
    (threePtrs (two 2 1) ∧ ((two 2 1).x 0).toInt ≠ 0 ∧ ((two 2 1).x 0).toInt ≠ 1) ∧
    (threePtrs (two 1 0xFFFFFFFF) ∧ ((two 1 0xFFFFFFFF).x 1).toInt ≠ 0 ∧ ((two 1 0xFFFFFFFF).x 1).toInt ≠ 1) := by
  decide
theorem witness_SwpExchanges :
    threePtrs ((two 4 9).toggleLock 0) ∧ ((two 4 9).toggleLock 0).locked 0 = true ∧ (two 4 9).PointsTo 10 0 ∧
      (two 4 9).evReady = true := by
  decide
theorem witness_GetReadsHiddenRegister :
    (two 0 1).PointsTo 12 2 ∧ (two 0 1).config.getIdMode = .literal ∧
    (∃ s : State, s.config.getIdMode = .indirect ∧ threePtrs s ∧ (s.x 0).toInt = 0 ∧ (s.x 1).toInt ≠ 0) :=
  ⟨by decide, by decide, { two 0 1 with config := { Config.spec with getIdMode := .indirect } }, by decide⟩
theorem witness_LockrToggles : (two 0 1).PointsTo 10 0 ∧ ((two 0 1).toggleLock 0).PointsTo 10 0 := by decide
theorem witness_PushrtsPushesAndClears :
    (∃ s : State, s.PointsTo 10 0 ∧ s.stack.length < s.config.stackDepth ∧ s.stack.length = 31) ∧
    (∃ s : State, s.PointsTo 10 0 ∧ s.stack.length = s.config.stackDepth) :=
  ⟨⟨(two 4 9).setStack (List.replicate 31 7), by decide⟩, ⟨(two 4 9).setStack (List.replicate 32 7), by decide⟩⟩
theorem witness_PoprfsPops :
    (∃ s : State, s.PointsTo 10 0 ∧ s.stack = [] ++ [7]) ∧ (∃ s : State, s.PointsTo 10 0 ∧ s.stack = []) :=
  ⟨⟨(two 4 9).setStack [7], by decide⟩, ⟨(two 4 9).setStack [], by decide⟩⟩
theorem witness_StackRoundTrip :
    ∃ s t t' : State, s.PointsTo 10 0 ∧ (10 : Byte).toNat ≠ (0 : Reg).val ∧ s.locked 0 = false ∧
      s.stack.length < s.config.stackDepth ∧ exec (.pushrts 10) s = .next t ∧ t'.stack = t.stack ∧ t'.PointsTo 10 0 ∧
      t'.locked 0 = false ∧ t'.line ≠ t.line :=
  ⟨two 4 9, _, { two 0 9 with stack := [0, 4], line := 7 }, by decide, by decide, by decide, by decide, rfl, by decide,
    by decide, by decide, by decide⟩
theorem witness_JumpsLandOnLine :
    ((two 0 0).PointsTo 10 0 ∧ ((two 0 0).x 0).toInt = (0 : Word).toNat) ∧
    ((two 0x7FFFFFFF 0).PointsTo 10 0 ∧ (0x7FFFFFFF : Word).toNat ≤ maxLine ∧
      ((two 0x7FFFFFFF 0).x 0).toInt = (0x7FFFFFFF : Word).toNat) ∧
    ((two 0xFFFFFFFF 0).PointsTo 10 0 ∧ ((two 0xFFFFFFFF 0).x 0).toInt < 0) :=
  ⟨by decide, ⟨by decide, by decide, by decide⟩, by decide⟩
/-- The line 1 and an offset in r0, for RJMP. -/
def offset (v : Word) : State := { two v 0 with line := 1 }
theorem witness_JumpsLandOnLine_relative :
    ((offset 0xFFFFFFFF).PointsTo 10 0 ∧ ((offset 0xFFFFFFFF).line.toNat : Int) + ((offset 0xFFFFFFFF).x 0).toInt = (0 : Word).toNat) ∧
    ((offset 0x7FFFFFFE).PointsTo 10 0 ∧
      ((offset 0x7FFFFFFE).line.toNat : Int) + ((offset 0x7FFFFFFE).x 0).toInt = (0x7FFFFFFF : Word).toNat) ∧
    ((offset 0xFFFFFFFE).PointsTo 10 0 ∧ ((offset 0xFFFFFFFE).line.toNat : Int) + ((offset 0xFFFFFFFE).x 0).toInt < 0) ∧
    ((offset 0x7FFFFFFF).PointsTo 10 0 ∧
      (maxLine : Int) < (offset 0x7FFFFFFF).line.toNat + ((offset 0x7FFFFFFF).x 0).toInt) :=
  ⟨⟨by decide, by decide⟩, ⟨by decide, by decide⟩, ⟨by decide, by decide⟩, by decide, by decide⟩
theorem witness_ConditionalBranches :
    ((two 1 0).PointsTo 10 0 ∧ (two 1 0).PointsTo 11 1 ∧ ((two 1 0).x 0).toInt = 1 ∧ ((two 1 0).x 0).toInt ≠ 0 ∧
      ((two 1 0).x 1).toInt = (0 : Word).toNat) ∧
    ((two 0 0x7FFFFFFF).PointsTo 10 0 ∧ (two 0 0x7FFFFFFF).PointsTo 11 1 ∧ ((two 0 0x7FFFFFFF).x 0).toInt = 0 ∧
      ((two 0 0x7FFFFFFF).x 0).toInt ≠ 1 ∧ ((two 0 0x7FFFFFFF).x 1).toInt = (0x7FFFFFFF : Word).toNat) ∧
    ((two 1 0xFFFFFFFF).PointsTo 11 1 ∧ ((two 1 0xFFFFFFFF).x 1).toInt < 0) ∧
    ((two 2 9).PointsTo 10 0 ∧ ((two 2 9).x 0).toInt ≠ 1 ∧ ((two 2 9).x 0).toInt ≠ 0) :=
  ⟨by decide, by decide, by decide, by decide⟩
theorem witness_GotoGoesToBoundLine :
    ∃ s : State, (s.labelAt 255).valid = true ∧ (s.labelAt 255).loc.toNat = maxLine :=
  ⟨{ State.reset with line := 0x7FFFFFFF }.bindLabel 255, by decide⟩
theorem witness_UnboundGotoPolicies :
    ∀ m ∈ [UnresolvedGoto.retry, .fallThrough, .fault], let s := { two 0 0 with config := { Config.spec with unresolvedGoto := m } }
      (s.labelAt 1).valid = false ∧ s.config.unresolvedGoto = m := by decide
theorem witness_VmcallPrintsExitsOrFaults :
    (threePtrs (two 0 1) ∧ ((two 0 1).x 0).toInt = 0) ∧ (threePtrs (two 1 0) ∧ ((two 1 0).x 0).toInt = 1) ∧
    (threePtrs (two 2 0) ∧ ((two 2 0).x 0).toInt ≠ 0 ∧ ((two 2 0).x 0).toInt ≠ 1) := by decide
theorem witness_BreakSuspendsUntilResume : (two 0 0).runState = .running ∧ State.reset.runState ≠ .suspended := by decide
theorem witness_HltAndIglHalt : (Instr.igl 7).WellFormed ∧ (Instr.igl 24).WellFormed ∧ (Instr.igl 255).WellFormed := by decide
theorem witness_InstructionFrame :
    ∀ i ∈ [Instr.add 10 11 12, .load 0 1, .swp 10 11, .lockr 10, .pushrts 10, .label 3, .jmp 10, .goto 9, .div 10 11 12],
      ∃ t, exec i (two 3 4) = .next t := by
  intro i hi
  simp only [List.mem_cons, List.not_mem_nil, or_false] at hi
  rcases hi with rfl | rfl | rfl | rfl | rfl | rfl | rfl | rfl | rfl <;> exact ⟨_, rfl⟩
theorem witness_MemoryAndStatusFrame :
    ∃ t, exec (.add 10 11 12) (two 3 4) = .next t ∧ t.runState ≠ .halted ∧ t.runState ≠ .faulted :=
  ⟨_, rfl, by decide, by decide⟩
theorem witness_EventsOfAnInstruction :
    (∃ t, exec (.vmcall 10 11 12) (two 0 1) = .next t ∧ t.events.length = 1) ∧
    (∃ t, exec (.swp 10 11) (((two 0 1).toggleLock 0).toggleLock 1) = .next t ∧ t.events.length = 2) ∧
    (∃ t, exec (.and 10 11 12) (two 2 1) = .next t ∧ t.events.length = 1) ∧
    (∃ t, exec (.goto 9) (two 2 1) = .next t ∧ t.events.length = 1) ∧
    (∃ s t : State, exec (.swp 10 11) s = .next t ∧ s.evReady = false ∧ t.events = s.events ++ [lockedEvent s 0]) :=
  ⟨⟨_, rfl, by decide⟩, ⟨_, rfl, by decide⟩, ⟨_, rfl, by decide⟩, ⟨_, rfl, by decide⟩,
    { ((two 4 9).toggleLock 0).toggleLock 1 with evReady := false }, _, rfl, by decide, by decide⟩
theorem witness_LockedRegisterKeepsContent :
    (∃ s t : State, s.locked 2 = true ∧ exec (.add 10 11 12) s = .next t ∧ s.MayWriteReg (.add 10 11 12) 2 ∧
      s.evReady = true ∧ s.runState ≠ .faulted ∧ t.runState ≠ .faulted) ∧
    (∃ s t : State, s.locked 2 = true ∧ step s = .next t ∧ s.inbox.head? ≠ some .reset ∧
      ∀ v l, s.inbox.head? ≠ some (.preload 2 v l)) :=
  ⟨⟨(two 3 4).toggleLock 2, _, by decide, rfl, ⟨by decide, by decide⟩, by decide, by decide, by decide⟩,
    (two 3 4).toggleLock 2, _, by decide, rfl, by decide, fun _ _ h => nomatch h⟩
theorem witness_LocksAndRemChangeOnlySo :
    (∃ s t : State, step s = .next t ∧ s.inbox.head? ≠ some .reset ∧ t.locked 0 ≠ s.locked 0 ∧ s.runState = .idle) ∧
    (∃ s t : State, step s = .next t ∧ s.inbox.head? ≠ some .reset ∧ t.locked 0 ≠ s.locked 0 ∧ s.runState = .running) ∧
    (∃ s t : State, step s = .next t ∧ s.inbox.head? ≠ some .reset ∧ s.Inv ∧ t.rem ≠ s.rem ∧ s.fetch = .ok (.div 10 11 12)) ∧
    (∃ s t : State, step s = .next t ∧ s.inbox.head? ≠ some .reset ∧ s.Inv ∧ t.rem ≠ s.rem ∧ s.fetch = .ok (.get 0 11)) :=
  ⟨⟨{ State.reset with inbox := [.preload 0 5 true] }, _, rfl, by decide, by decide, by decide⟩,
    ⟨slotState 0 [0x12, 0x0A] pointers, _, rfl, by decide, by decide, by decide⟩,
    ⟨slotState 0 [0x04, 0x0A, 0x0B, 0x0C] (pointers ++ [(0, 7), (1, 2)]), _, rfl, by decide,
      running_inv rfl rfl rfl (by decide), by decide, by decide⟩,
    ⟨(slotState 0 [0x11, 0x00, 0x0B] pointers).setRem 2, _, rfl, by decide, running_inv rfl rfl rfl (by decide), by decide,
      by decide⟩⟩
theorem witness_BoundLabelsPersist :
    ∃ s t : State, step s = .next t ∧ s.inbox.head? ≠ some .reset ∧ (s.labelAt 3).valid = true ∧ s.fetch = .ok (.label 3) :=
  ⟨(slotState 8 [0x16, 0x03] []).bindLabel 3, _, rfl, by decide, by decide, by decide⟩
theorem witness_ResetFromAnyState : ∃ s : State, s.inbox = [.reset, .start] ∧ s.runState = .faulted :=
  ⟨{ State.reset with runState := .faulted, inbox := [.reset, .start] }, by decide⟩
theorem witness_ProgramLoad :
    (∃ s : State, s.inbox = [.load [1, 0, 2]] ∧ s.runState = .idle ∧ [(1 : Byte), 0, 2].length ≤ maxProgLen) ∧
    (∃ (s : State) (bytes : List Byte), s.inbox = [.load bytes] ∧ s.runState = .idle ∧ maxProgLen < bytes.length) ∧
    (∃ s : State, s.inbox = [.load [1, 0, 2]] ∧ s.runState ≠ .idle) :=
  ⟨⟨{ State.reset with inbox := [.load [1, 0, 2]] }, by decide⟩,
    ⟨{ State.reset with inbox := [.load (List.replicate (maxProgLen + 1) 0)] }, List.replicate (maxProgLen + 1) 0, rfl, rfl,
      by rw [List.length_replicate]; omega⟩,
    ⟨{ two 0 0 with inbox := [.load [1, 0, 2]] }, by decide⟩⟩
theorem witness_PreloadAndStart :
    ((stopped .idle .hlt .none 0 0).runState = .idle ∧ (stopped .idle .hlt .none 0 0).Inv) ∧ (two 0 0).runState ≠ .idle :=
  ⟨⟨rfl, stopped_inv ⟨by decide, by decide, by decide, by decide, by decide, by decide⟩ (by decide)⟩, by decide⟩
theorem witness_DebugPortReads : State.reset.runState ≠ .running ∧ ∀ a ∈ [(33 : BitVec 6), 63], 33 ≤ a.toNat := by decide
theorem witness_StatusWordValues_live : (stopped .idle .hlt .none 0 0).Inv ∧ (stopped .running .hlt .none 0 0).Inv ∧
    ∃ s : State, s.Inv ∧ s.runState = .suspended := by
  refine ⟨stopped_inv ⟨by decide, by decide, by decide, by decide, by decide, by decide⟩ (by decide),
    stopped_inv ⟨by decide, by decide, by decide, by decide, by decide, by decide⟩ (by decide),
    { State.reset with runState := .suspended, progLen := 1, prog := [(0, 0x15)], pc := 1 },
    ⟨⟨rfl, by simp, by decide⟩, ⟨by decide, by decide, fun h => (nomatch h), by decide⟩,
      ⟨by decide, by decide, rfl, loc_le_of_reset_labels rfl, invalid_loc_of_reset_labels rfl⟩,
      ⟨by decide, by decide, by decide, by decide, by decide, by decide⟩,
      ⟨fun e h => (nomatch h), fun h => absurd rfl h⟩, ⟨fun h => absurd rfl h, fun _ h => (nomatch h)⟩⟩, rfl⟩
theorem witness_StatusWordValues_halted : (stopped .halted .hlt .none 0 0).Inv ∧ (stopped .halted .ended .none 0 0).Inv ∧
    (stopped .halted .exit .none 0 0xFFFFFFFF).Inv ∧ (stopped .halted .illegal .none 255 4).Inv := by
  refine ⟨stopped_inv ?_ (by decide), stopped_inv ?_ (by decide), stopped_inv ?_ (by decide), stopped_inv ?_ (by decide)⟩ <;>
    exact ⟨by decide, by decide, by decide, by decide, by decide, by decide⟩
theorem witness_StatusWordValues_faulted (c : FaultCause) (h : c ≠ .none) : (stopped .faulted .hlt c 0 0).Inv :=
  stopped_inv ⟨fun _ => ⟨rfl, rfl⟩, ⟨fun _ => rfl, fun _ => h⟩, fun h => absurd rfl h, fun _ => rfl, fun h => (nomatch h),
    fun _ => rfl⟩ (by decide)
theorem witness_EventPortPresentsUnaccepted :
    (∃ s : State, s.events = [soft 1 0 0] ++ [soft 1 1 2] ∧ s.stalled ≠ none) ∧ State.reset.stalled = none ∧
    (∃ s : State, s.stalled ≠ none ∧ s.runState ≠ .running) :=
  ⟨⟨{ two 0 0 with events := [soft 1 0 0, soft 1 1 2], stalled := some .advance, evReady := false }, by decide⟩, by decide,
    { State.reset with stalled := some .advance }, by decide⟩

end Sys2Proof.Tests
end

section
/-! PROOFS. `USAGE_COUNT` (spec/10_state.md R35): the count over the register file as a list is the count over the
register numbers, and its 6 bits hold it. -/

namespace Sys2Proof.Machine

theorem State.regs_toList (s : State) : s.regs.toList = (List.finRange 32).map s.x :=
  List.ext_getElem (by simp) fun i _ _ => by simp [State.x, Vector.get_eq_getElem]

/-- The count of R35 before it is cut to 6 bits, as a count over register numbers. -/
theorem State.countP_regs (s : State) :
    s.regs.toList.countP (· != 0) = (Finset.univ.filter fun i : Reg => s.x i ≠ 0).card := by
  calc s.regs.toList.countP (· != 0)
      = (List.finRange 32).countP fun i => s.x i ≠ 0 := by
        rw [s.regs_toList, List.countP_map]
        exact List.countP_congr fun i _ => by simp
    _ = (Finset.univ.filter fun i : Reg => s.x i ≠ 0).card := by
        rw [← (List.nodup_finRange 32).card_eq_countP, List.toFinset_finRange]

/-- R35: 6 bits lose nothing, since the count is at most 32. -/
theorem State.usageCount_toNat (s : State) :
    s.usageCount.toNat = (Finset.univ.filter fun i : Reg => s.x i ≠ 0).card := by
  have hle : (Finset.univ.filter fun i : Reg => s.x i ≠ 0).card ≤ 32 := Finset.card_le_univ _
  rw [State.usageCount, s.countP_regs, BitVec.toNat_ofNat, Nat.mod_eq_of_lt (by omega)]

@[simp] theorem State.reset_x (i : Reg) : State.reset.x i = 0 := by
  simp [State.x, State.reset, Vector.get_eq_getElem]

theorem State.reset_usageCount : State.reset.usageCount = 0 :=
  BitVec.eq_of_toNat_eq (by simp [State.usageCount_toNat])

/-- Settles O56: the count over register numbers, in every state; at reset every register holds 0. -/
theorem usageCountCounts : Obligations.UsageCountCounts :=
  ⟨State.usageCount_toNat, State.reset_usageCount⟩

end Sys2Proof.Machine
end

section
/-! PROOFS. `Decode(B0)` is total (spec/30_encoding.md R89): a rejection names a missing byte of the slot, and a slot of four
bytes lacks none; what an acceptance reads is the opcode byte and the first operand bytes. -/

namespace Sys2Proof

/-- R114: only a list of fewer than four bytes is rejected. -/
theorem exists_decode_ok_of_four_le_length {bs : List Byte} (h : 4 ≤ bs.length) : ∃ i, decode bs = .ok i := by
  cases hd : decode bs with
  | ok i => exact ⟨i, rfl⟩
  | error e =>
    obtain ⟨k⟩ := e
    obtain ⟨hk, hk4⟩ := decode_error hd
    omega

/-- R81, R84: the decoded instruction has the list's first byte as opcode and the bytes after it, as many as it reads, as
operand bytes. -/
theorem DecodesAs.opcode_eq_and_operandBytes_eq_take {op : Byte} {rest : List Byte} {i : Instr}
    (h : DecodesAs (op :: rest) i) : i.opcode = op ∧ i.operandBytes = rest.take i.operandCount := by
  obtain ⟨-, hpre⟩ := h
  obtain ⟨hop, hrest⟩ := List.cons_prefix_cons.1 hpre
  exact ⟨hop, List.prefix_iff_eq_take.1 hrest⟩

/-- Settles O2: no byte of a four-byte slot is missing, so decoding accepts; the encoding is the bytes read, padded. -/
theorem everySlotDecodes : Obligations.EverySlotDecodes := by
  intro b0 b1 b2 b3
  obtain ⟨i, hd⟩ := exists_decode_ok_of_four_le_length (bs := [b0, b1, b2, b3]) le_rfl
  have hbytes := decode_ok hd
  obtain ⟨hop, hoperands⟩ := hbytes.opcode_eq_and_operandBytes_eq_take
  refine ⟨i, hd, hbytes.1, hop, ?_⟩
  rw [encode, hop, hoperands]

end Sys2Proof
end

section
/-! PROOFS. The terminal test (spec/40_execution.md R111): a step of an acting core is an instruction's, and it asks first
whether `pc` has reached the end of the program. -/

namespace Sys2Proof.Machine

open Sys2Proof.Claims

/-- R110, R254: with the core RUNNING, no event waiting and no transaction to come, the step is `Step()`. -/
theorem step_eq_runStep_of_coreActs {s : State} (h : CoreActs s) : step s = runStep s := by
  obtain ⟨hinbox, hstalled, hrunning⟩ := h
  rw [step, cycle, hinbox]
  simp only [coreStep, hrunning, hstalled]

/-- R111, the terminal test met. -/
theorem runStep_eq_halt_of_progLen_le_pc {s : State} (h : s.progLen ≤ s.pc.toNat) :
    runStep s = .next (s.halt .ended 0) :=
  if_pos h

/-- R123: `Halt` sets the run state, the cause and the exit code and nothing else. -/
theorem State.halt_eq_haltedWith (s : State) (c : HaltCause) (code : Word) : s.halt c code = haltedWith s c code := rfl

/-- Settles O5: the step is `Step()`, whose terminal test comes before the fetch and halts. -/
theorem endOfProgramHalts : Obligations.EndOfProgramHalts := by
  intro s hacts hend
  calc step s = runStep s := step_eq_runStep_of_coreActs hacts
    _ = .next (s.halt .ended 0) := runStep_eq_halt_of_progLen_le_pc hend
    _ = .next (haltedWith s .ended 0) := by rw [State.halt_eq_haltedWith]

end Sys2Proof.Machine
end

section
/-! PROOFS. PUSHRTS and POPRFS in the states of the round trip (spec/44_stack.md R192): neither faults, and the write into
the unlocked register lands. -/

namespace Sys2Proof.Machine

/-- R118: into an unlocked register the lock-checked write lands. -/
theorem State.put_of_unlocked {s : State} {k : Reg} (h : s.locked k = false) (v : Word) :
    s.put k v = (s.setX k v).advance := by
  rcases s.put_cases k v with ⟨_, e⟩ | ⟨hk, _⟩
  · exact e
  · simp [h] at hk

/-- R116: a pointer reads no register but its own, so writing its target, when another register, keeps it. -/
theorem State.pointsTo_of_eq_except {s t : State} {p : Byte} {i r : Reg} (h : s.PointsTo p i) (hne : p.toNat ≠ r.val)
    (hx : ∀ j, j ≠ r → t.x j = s.x j) : t.PointsTo p i := by
  obtain ⟨hp, hv⟩ := h
  have hj : (⟨p.toNat, hp⟩ : Reg) ≠ r := fun e => hne (congrArg Fin.val e)
  exact ⟨hp, by rw [hx _ hj, hv]⟩

/-- R190 with room on the stack and an unlocked target. -/
theorem exec_pushrts_of_unlocked {s : State} {p : Byte} {r : Reg} (hp : s.PointsTo p r) (hlock : s.locked r = false)
    (hroom : s.stack.length < s.config.stackDepth) :
    exec (.pushrts p) s = .next ((s.setStack (s.stack ++ [s.x r])).setX r 0).advance := by
  have hpush : s.pushFrom r = (s.setStack (s.stack ++ [s.x r])).put r 0 := by
    rcases s.pushFrom_cases r with ⟨hfull, _⟩ | ⟨_, e⟩
    · omega
    · exact e
  calc exec (.pushrts p) s = .next (s.pushFrom r) := State.withPtr_of_pointsTo hp _
    _ = .next ((s.setStack (s.stack ++ [s.x r])).setX r 0).advance := by
      rw [hpush, State.put_of_unlocked (by simpa using hlock)]

/-- R191 with a top on the stack and an unlocked target. -/
theorem exec_poprfs_of_unlocked {s : State} {p : Byte} {r : Reg} {st : List Word} {v : Word} (hp : s.PointsTo p r)
    (hlock : s.locked r = false) (htop : s.stack = st ++ [v]) :
    exec (.poprfs p) s = .next ((s.setStack st).setX r v).advance := by
  have hpop : s.popInto r = (s.setStack st).put r v := by
    rcases s.popInto_cases r with ⟨hempty, _⟩ | ⟨st', v', hs, e⟩
    · simp [hempty] at htop
    · obtain ⟨rfl, rfl⟩ := List.append_singleton_inj.1 (hs.symm.trans htop)
      exact e
  calc exec (.poprfs p) s = .next (s.popInto r) := State.withPtr_of_pointsTo hp _
    _ = .next ((s.setStack st).setX r v).advance := by
      rw [hpop, State.put_of_unlocked (by simpa using hlock)]

/-- Settles O36: PUSHRTS leaves the old stack with `x[r]` on top and clears only `r`, which is not the pointer; POPRFS takes
that top back from any state with this stack. -/
theorem stackRoundTrip : Obligations.StackRoundTrip := by
  intro p s r hp hne hlock hroom
  refine ⟨_, exec_pushrts_of_unlocked hp hlock hroom, by simp, ?pointer, by simpa using hlock, ?pop⟩
  case pointer => exact State.pointsTo_of_eq_except hp hne fun j hj => by simp [hj.symm]
  case pop =>
    intro t' hstack hp' hlock'
    have htop : t'.stack = s.stack ++ [s.x r] := by simpa using hstack
    exact ⟨_, exec_poprfs_of_unlocked hp' hlock' htop, by simp, by simp⟩

end Sys2Proof.Machine
end

section
/-! PROOFS. Preload and start (spec/70_reset_and_hazards.md R282, R283): what each transaction leaves while the core is IDLE
and in any other run state. -/

namespace Sys2Proof.Machine

/-- R42: a preload at the head of the schedule is taken off it and performed. -/
theorem step_preload_cons (s : State) (rest : List HostAction) (i : Reg) (v : Word) (l : Bool) :
    step { s with inbox := .preload i v l :: rest } = .next ({ s with inbox := rest }.hostPreload i v l) := rfl

/-- R42: a start at the head of the schedule is taken off it and performed. -/
theorem step_start_cons (s : State) (rest : List HostAction) :
    step { s with inbox := .start :: rest } = .next { s with inbox := rest }.hostStart := rfl

theorem State.hostPreload_of_idle {s : State} (h : s.runState = .idle) (i : Reg) (v : Word) (l : Bool) :
    s.hostPreload i v l = { s with regs := s.regs.set i v i.isLt, locks := s.locks.set i l i.isLt } :=
  ((s.hostPreload_cases i v l).resolve_right fun ⟨hne, _⟩ => hne h).2

theorem State.hostPreload_of_ne_idle {s : State} (h : s.runState ≠ .idle) (i : Reg) (v : Word) (l : Bool) :
    s.hostPreload i v l = s :=
  ((s.hostPreload_cases i v l).resolve_left fun ⟨he, _⟩ => h he).2

theorem State.hostStart_of_idle {s : State} (h : s.runState = .idle) : s.hostStart = { s with runState := .running } :=
  (s.hostStart_cases.resolve_right fun ⟨hne, _⟩ => hne h).2

theorem State.hostStart_of_ne_idle {s : State} (h : s.runState ≠ .idle) : s.hostStart = s :=
  (s.hostStart_cases.resolve_left fun ⟨he, _⟩ => h he).2

/-- R282: of the register file a preload writes what `setX` writes, whatever the lock flag was. -/
theorem State.hostPreload_x_of_idle {s : State} (h : s.runState = .idle) (i r : Reg) (v : Word) (l : Bool) :
    (s.hostPreload i v l).x r = if i = r then v else s.x r := by
  rw [State.hostPreload_of_idle h]
  exact s.setX_x i r v

theorem State.hostPreload_locked_of_idle {s : State} (h : s.runState = .idle) (i r : Reg) (v : Word) (l : Bool) :
    (s.hostPreload i v l).locked r = if i = r then l else s.locked r := by
  rw [State.hostPreload_of_idle h, State.locked, State.locked]
  simp only [Vector.get_eq_getElem, Vector.getElem_set, Fin.val_inj]

/-- R282: the frame of a preload, all but the register file and the lock flags. -/
theorem State.hostPreload_eq_of_idle {s : State} (h : s.runState = .idle) (i : Reg) (v : Word) (l : Bool) :
    s.hostPreload i v l = { s with regs := (s.hostPreload i v l).regs, locks := (s.hostPreload i v l).locks } := by
  rw [State.hostPreload_of_idle h]

/-- Settles O53: the step performs the transaction, whose own test of the run state decides; an IDLE core's counters are 0
by the invariant. -/
theorem preloadAndStart : Obligations.PreloadAndStart := by
  intro s rest i v l
  rw [step_preload_cons, step_start_cons]
  refine ⟨fun hidle => ?idle, fun hne => ?other⟩
  case idle =>
    have hidle' : ({ s with inbox := rest } : State).runState = .idle := hidle
    refine ⟨⟨_, rfl, ?_, ?_, fun r hr => ⟨?_, ?_⟩, State.hostPreload_eq_of_idle hidle' i v l⟩, ?_,
      fun hinv => hinv.counters.idle_zero hidle⟩
    · exact (State.hostPreload_x_of_idle hidle' i i v l).trans (if_pos rfl)
    · exact (State.hostPreload_locked_of_idle hidle' i i v l).trans (if_pos rfl)
    · exact (State.hostPreload_x_of_idle hidle' i r v l).trans (if_neg hr.symm)
    · exact (State.hostPreload_locked_of_idle hidle' i r v l).trans (if_neg hr.symm)
    · rw [State.hostStart_of_idle hidle']
  case other =>
    have hne' : ({ s with inbox := rest } : State).runState ≠ .idle := hne
    rw [State.hostPreload_of_ne_idle hne', State.hostStart_of_ne_idle hne']
    exact ⟨rfl, rfl⟩

end Sys2Proof.Machine
end

section
/-! PROOFS. `Decode` is a left inverse of the encoding (spec/30_encoding.md R80 to R87): a list that begins with the opcode
and operand bytes of a well-formed instruction decodes to it, and to no other. -/

namespace Sys2Proof

/-- R84, R85: a byte with no mapping decodes to IGL, whatever follows it. -/
theorem decode_unmapped_cons {op : Byte} (h : isUnmapped op = true) (rest : List Byte) :
    decode (op :: rest) = .ok (.igl op) := by
  simp only [isUnmapped, Bool.or_eq_true, beq_iff_eq, decide_eq_true_eq] at h
  simp only [decode]
  split
  case h_24 => rfl
  all_goals omega

/-- R81, R84, R87: the bytes after the operand bytes have no effect. -/
theorem decode_bytes_append {i : Instr} (h : i.WellFormed) (padding : List Byte) :
    decode (i.opcode :: (i.operandBytes ++ padding)) = .ok i := by
  cases i with
  | load r imm => exact congrArg (fun v => Except.ok (Instr.load r v)) (bytes_immOf imm)
  | igl op => exact decode_unmapped_cons h padding
  | hlt | brk => rfl
  | jmp p | rjmp p | lockr p | pushrts p | poprfs p | label p | goto p => rfl
  | jeq p q | jneq p q | swp p q | not p q | get p q => rfl
  | add p q s | sub p q s | div p q s | vmcall p q s | eq p q s | neq p q s | and p q s | or p q s => rfl

/-- R87, R89: decoding answers an instruction exactly when the bytes begin with that instruction's. -/
theorem decode_eq_ok_iff {bs : List Byte} {i : Instr} : decode bs = .ok i ↔ DecodesAs bs i := by
  refine ⟨decode_ok, ?_⟩
  rintro ⟨hwf, padding, rfl⟩
  exact decode_bytes_append hwf padding

/-- Settles O1: by the opcode and the format of each instruction; the encoding pads with zeros. -/
theorem decodeEncodeAgree : Obligations.DecodeEncodeAgree :=
  fun _ padding hwf => ⟨decode_bytes_append hwf padding, decode_bytes_append hwf _⟩

/-- R80: an instruction reads at most three operand bytes. -/
theorem Instr.operandCount_le_three (i : Instr) : i.operandCount ≤ 3 := by
  cases i <;> simp [Instr.operandCount, Instr.operandBytes]

/-- R81: `n` as a function of the opcode byte. -/
def operandCountOf (op : Byte) : Nat :=
  match op.toNat with
  | 1 | 2 | 3 | 4 | 8 | 9 | 11 | 14 | 15 => 3
  | 10 | 12 | 13 | 16 | 17 => 2
  | 5 | 6 | 18 | 19 | 20 | 22 | 23 => 1
  | _ => 0

theorem operandCountOf_unmapped {op : Byte} (h : isUnmapped op = true) : operandCountOf op = 0 := by
  simp only [isUnmapped, Bool.or_eq_true, beq_iff_eq, decide_eq_true_eq] at h
  unfold operandCountOf
  split
  case h_22 => rfl
  all_goals omega

theorem Instr.operandCount_eq_of_opcode {i : Instr} (h : i.WellFormed) : i.operandCount = operandCountOf i.opcode := by
  cases i with
  | igl op => exact (operandCountOf_unmapped h).symm
  | _ => rfl

/-- R81, R84: the opcode byte fixes the number of operand bytes. -/
theorem Instr.operandCount_congr {i j : Instr} (hi : i.WellFormed) (hj : j.WellFormed) (h : i.opcode = j.opcode) :
    i.operandCount = j.operandCount := by
  rw [Instr.operandCount_eq_of_opcode hi, Instr.operandCount_eq_of_opcode hj, h]

/-- Settles O3: the opcode and operand bytes of each word, by evaluation. -/
theorem sampleWordsDecode : Obligations.SampleWordsDecode := by
  unfold Obligations.SampleWordsDecode
  decide

end Sys2Proof
end

section
/-! PROOFS. Fetch and operand reads (spec/40_execution.md R112 to R114): when the fetch answers an instruction, what it
answers otherwise, and the step that follows. -/

namespace Sys2Proof.Machine

open Sys2Proof.Claims

variable {s t : State} {i : Instr}

theorem State.fetchAddress_eq_fetchAt (s : State) : s.fetchAddress = fetchAt s := rfl

/-- R112 to R114: a well-formed instruction whose bytes lie inside the program and stand at the line is fetched. -/
theorem State.fetch_eq_ok (hwf : i.WellFormed) (hinside : s.fetchAddress + i.operandCount < s.progLen)
    (hbytes : ∀ k (hk : k < (i.opcode :: i.operandBytes).length),
      (i.opcode :: i.operandBytes)[k] = s.progByte (s.fetchAddress + k)) : s.fetch = .ok i := by
  have hlen : (i.opcode :: i.operandBytes).length ≤ (s.slotBytes s.fetchAddress).length := by
    have h3 := i.operandCount_le_three
    rw [State.slotBytes_length, List.length_cons]
    change i.operandCount + 1 ≤ _
    omega
  have hprefix : (i.opcode :: i.operandBytes) <+: s.slotBytes s.fetchAddress := by
    refine List.prefix_iff_getElem.mpr ⟨hlen, fun k hk => ?_⟩
    rw [hbytes k hk, State.slotBytes_get]
  have hdecode : decode (s.slotBytes s.fetchAddress) = .ok i := decode_eq_ok_iff.mpr ⟨hwf, hprefix⟩
  rw [State.fetch, hdecode]

/-- R112, R114: a fetch that answers no instruction names the first address that is not readable. -/
theorem State.fetch_eq_error (h : ∀ i, s.fetch ≠ .ok i) : s.fetch = .error (max s.fetchAddress s.progLen) := by
  cases hf : s.fetch with
  | ok i => exact absurd hf (h i)
  | error a => rw [(State.fetch_error hf).1]

/-- R110: the step of an acting core whose terminal test is not met and whose fetch answers an instruction. -/
theorem step_eq_exec_of_fetch (hacts : CoreActs s) (hpc : s.pc.toNat < s.progLen) (hf : s.fetch = .ok i) :
    step s = exec i { s with pc := BitVec.ofNat 32 (fetchAt s + 1 + i.operandCount) } := by
  rw [step_eq_runStep_of_coreActs hacts, runStep, if_neg (by omega), hf]
  rfl

/-- R112, R114: the step of an acting core whose fetch answers no instruction. -/
theorem step_eq_overrun (hacts : CoreActs s) (hpc : s.pc.toNat < s.progLen) (hf : ∀ i, s.fetch ≠ .ok i) :
    step s = .next (faultedWith { s with pc := BitVec.ofNat 32 (max (fetchAt s) s.progLen) } .programOverrun) := by
  rw [step_eq_runStep_of_coreActs hacts, runStep, if_neg (by omega), State.fetch_eq_error hf]
  rfl

/-- The slot's bytes by their place in it. -/
theorem getElem_slotAt (s : State) (k : Nat) (hk : k < (slotAt s).length) : (slotAt s)[k] = s.progByte (fetchAt s + k) := by
  match k, hk with
  | 0, _ | 1, _ | 2, _ | 3, _ => rfl

/-- Settles O4: the bytes decoded are the instruction's own, which are inside the program, so the fetch answers it. -/
theorem stepRunsDecodedInstruction : Obligations.StepRunsDecodedInstruction := by
  intro s i hacts hpc hdecode hinside
  obtain ⟨hwf, hprefix⟩ := decode_ok hdecode
  refine step_eq_exec_of_fetch hacts hpc (State.fetch_eq_ok hwf hinside fun k hk => ?_)
  rw [hprefix.getElem hk, getElem_slotAt, State.fetchAddress_eq_fetchAt]

/-- Settles O6: no instruction has its opcode byte inside the program. -/
theorem fetchBeyondEndFaults : Obligations.FetchBeyondEndFaults := by
  intro s hacts hpc hbeyond
  have hf : ∀ i, s.fetch ≠ .ok i := fun i hi => by
    obtain ⟨-, hinside, -⟩ := State.fetch_ok hi
    rw [State.fetchAddress_eq_fetchAt] at hinside
    omega
  rw [step_eq_overrun hacts hpc hf, max_eq_left hbeyond]

/-- Settles O7: an instruction fetched would have the same opcode byte, so the same operand bytes, inside the program. -/
theorem truncatedSlotFaults : Obligations.TruncatedSlotFaults := by
  intro s i hacts hpc hopcode hwf hbyte hcut
  have hf : ∀ j, s.fetch ≠ .ok j := fun j hj => by
    obtain ⟨hwf', hinside, hbytes⟩ := State.fetch_ok hj
    have hsame : j.opcode = i.opcode := (hbytes 0 (by simp)).trans hbyte.symm
    rw [Instr.operandCount_congr hwf' hwf hsame, State.fetchAddress_eq_fetchAt] at hinside
    omega
  rw [step_eq_overrun hacts hpc hf, max_eq_right hopcode.le]

/-- Settles O8: IGL reads no operand byte, so the fetch answers it. -/
theorem unmappedByteHaltsIllegal : Obligations.UnmappedByteHaltsIllegal := by
  intro s hacts hpc hopcode hunmapped
  have hwf : (Instr.igl (s.progByte (fetchAt s))).WellFormed := by
    simp only [Instr.WellFormed, Instr.wellFormed, isUnmapped, Bool.or_eq_true, beq_iff_eq, decide_eq_true_eq]
    exact hunmapped.imp (congrArg BitVec.toNat) id
  have hf : s.fetch = .ok (.igl (s.progByte (fetchAt s))) := by
    refine State.fetch_eq_ok hwf hopcode fun k hk => ?_
    obtain rfl : k = 0 := Nat.lt_one_iff.mp hk
    rfl
  rw [step_eq_exec_of_fetch hacts hpc hf]
  rfl

/-- R87: the fetch reads no byte of program memory but those of the instruction it answers. -/
theorem State.fetch_within_of_agree {m : Memory} (r : List HostAction) (hf : s.fetch = .ok i)
    (hm : ∀ k, k ≤ i.operandCount → Memory.read m (fetchAt s + k) = s.progByte (fetchAt s + k)) :
    (s.within m r).fetch = .ok i := by
  obtain ⟨hwf, hinside, hbytes⟩ := State.fetch_ok hf
  refine State.fetch_eq_ok hwf hinside fun k hk => ?_
  rw [hbytes k hk]
  exact (hm k (Nat.lt_succ_iff.mp hk)).symm

/-- With no transaction to come a step is the core's. -/
theorem step_eq_coreStep (h : s.inbox = []) : step s = coreStep s := by rw [step, cycle, h]

theorem coreStep_within_of_next {m : Memory} {r : List HostAction} (hf : (s.within m r).fetch = s.fetch)
    (h : coreStep s = .next t) : coreStep (s.within m r) = .next (t.within m r) := by
  rw [coreStep_within s m r hf, h]; rfl

/-- R61: the core's step changes neither program memory nor the schedule. -/
theorem coreStep_prog_inbox (h : coreStep s = .next t) : t.prog = s.prog ∧ t.inbox = s.inbox := by
  have hsame : coreStep s = .next (t.within s.prog s.inbox) := coreStep_within_of_next (r := s.inbox) rfl h
  have ht : t.within s.prog s.inbox = t := next_inj (h.symm.trans hsame)
  rw [← ht]
  exact ⟨rfl, rfl⟩

/-- Settles O9: the fetch answers the same instruction, and nothing else of the core's step reads program memory. -/
theorem otherProgramBytesHaveNoEffect : Obligations.OtherProgramBytesHaveNoEffect := by
  intro s t i m hacts hf hm hstep
  obtain ⟨hinbox, -, -⟩ := hacts
  rw [step_eq_coreStep hinbox] at hstep
  obtain ⟨-, ht⟩ := coreStep_prog_inbox hstep
  have hfetch : (s.within m s.inbox).fetch = s.fetch := by rw [State.fetch_within_of_agree _ hf hm, hf]
  calc step { s with prog := m }
      = coreStep (s.within m s.inbox) := step_eq_coreStep hinbox
    _ = .next (t.within m s.inbox) := coreStep_within_of_next hfetch hstep
    _ = .next { t with prog := m } := by rw [← ht]; rfl

/-- Settles O11: the core's step neither reads nor changes the schedule. -/
theorem passIsTheCoresStep : Obligations.PassIsTheCoresStep := by
  intro s t rest hinbox hstep
  have hcore : coreStep { s with inbox := [] } = .next t := hstep
  obtain ⟨ht, -⟩ := coreStep_prog_inbox hcore
  calc step s
      = coreStep (State.within { s with inbox := [] } s.prog rest) := by rw [step, cycle, hinbox]; rfl
    _ = .next (t.within s.prog rest) := coreStep_within_of_next rfl hcore
    _ = .next { t with inbox := rest } := by rw [← show t.prog = s.prog from ht]; rfl

end Sys2Proof.Machine
end

section
/-! PROOFS. Waiting states (spec/60_exceptions.md R250, R254): a step that changes nothing, repeated. -/

namespace Sys2Proof.Machine

/-- R254: a core that is not RUNNING holds its state. -/
theorem coreStep_of_not_running {s : State} (h : s.runState ≠ .running) : coreStep s = .next s := by
  unfold coreStep
  cases hs : s.runState with
  | running => exact absurd hs h
  | idle | suspended | halted | faulted => rfl

/-- R250, R254 (log 2): what a core without a transaction to come does while it waits or is not RUNNING. -/
theorem step_eq_self_of_waiting {s : State} (hinbox : s.inbox = [])
    (hwait : (s.runState = .running ∧ s.stalled ≠ none ∧ s.evReady = false) ∨ s.runState ≠ .running) :
    step s = .next s := by
  rw [step_eq_coreStep hinbox]
  rcases hwait with ⟨hrun, hst, hready⟩ | hrun
  · obtain ⟨r, hr⟩ := Option.ne_none_iff_exists'.mp hst
    simp [coreStep, hrun, hr, hready]
  · exact coreStep_of_not_running hrun

/-- Settles O10: by induction on the number of steps, each of which answers the same state. -/
theorem waitingCoreHoldsItsState : Obligations.WaitingCoreHoldsItsState := by
  intro n s hinbox hwait
  induction n with
  | zero => exact run_zero s
  | succ n ih => rw [run_succ n (step_eq_self_of_waiting hinbox hwait), ih]

end Sys2Proof.Machine
end

section
/-! PROOFS. The model's operations answer the states that the rules write out (`Claims`): spec/40_execution.md R118 to R121,
spec/60_exceptions.md R250. -/

namespace Sys2Proof.Machine

open Sys2Proof.Claims

variable (s : State)

theorem State.advance_eq_nextSlot : s.advance = nextSlot s := by
  rw [State.advance, linePc_eq, nextSlot]

theorem State.softEvent_eq (c : SoftCause) (data : Word) : s.softEvent c data = Claims.softEvent s c.code data := rfl

theorem State.unresolvedGoto_eq_afterUnresolved : s.unresolvedGoto = afterUnresolved s := by
  unfold State.unresolvedGoto afterUnresolved
  cases s.config.unresolvedGoto
  · simp only [linePc_eq]
  · exact s.advance_eq_nextSlot
  · rfl

/-- R250, R124: the effects left do what the rules say of them. -/
theorem State.finish_eq_continued (r : Rest) (s : State) : State.finish r s = continued r s := by
  induction r generalizing s with
  | advance => exact s.advance_eq_nextSlot
  | unresolvedGoto => exact s.unresolvedGoto_eq_afterUnresolved
  | setRem v r ih => exact ih (s.setRem v)
  | write k v r ih =>
    simp only [State.finish, continued, afterWriteThen, afterEvent, ih]
    rfl

/-- R250: an event, then the rest. -/
theorem State.emitThen_eq_afterEvent (e : Event) (r : Rest) : s.emitThen e r = afterEvent s e r (continued r) := by
  simp only [State.emitThen, afterEvent, State.finish_eq_continued]
  rfl

/-- R118: the lock-checked write, then the rest. -/
theorem State.finish_write_eq (k : Reg) (v : Word) (r : Rest) :
    State.finish (.write k v r) s = afterWriteThen s k v r (continued r) :=
  s.finish_eq_continued (.write k v r)

theorem State.put_eq_afterWrite (k : Reg) (v : Word) : s.put k v = afterWrite s k v := s.finish_write_eq k v .advance

/-- R120: a branch outside 0 to 2^31 - 1. -/
theorem State.branchTo_eq_faultedWith {v : Int} (h : v < 0 ∨ (maxLine : Int) < v) :
    s.branchTo v = faultedWith s .branchRange :=
  if_pos h

/-- R120: a branch to a line in range, given as an exact integer. -/
theorem State.branchTo_eq_branchedTo {v : Int} {l : Word} (hl : l.toNat ≤ maxLine) (hv : v = l.toNat) :
    s.branchTo v = branchedTo s l := by
  rw [hv, State.branchTo_line hl]
  rfl

end Sys2Proof.Machine
end

section
/-! PROOFS. LOAD, ADD, SUB, DIV (spec/41_load_arith.md). -/

namespace Sys2Proof.Machine

open Sys2Proof.Claims

/-- Settles O23: the byte names the register, so nothing faults before the write. -/
theorem loadWritesImmediate : Obligations.LoadWritesImmediate := by
  intro r imm s k hk
  have himm : imm.setWidth 32 = BitVec.ofNat 32 imm.toNat := BitVec.eq_of_toNat_eq (by simp)
  calc exec (.load r imm) s
      = .next (s.put k (imm.setWidth 32)) := by
        rw [exec, execLoad, resolveDirect_ok_iff.mpr hk]; rfl
    _ = .next (afterWrite s k (BitVec.ofNat 32 imm.toNat)) := by rw [State.put_eq_afterWrite, himm]

/-- R10: a content has a value in `i32`. -/
theorem toInt_inI32 (w : Word) : InI32 w.toInt := by
  have hlo := w.le_toInt
  have hhi := w.toInt_lt
  unfold InI32 intMin intMax
  omega

/-- R10: `wrap32` of a content's own value is the content. -/
theorem wrap32_toInt (w : Word) : wrap32 w.toInt = w := BitVec.ofInt_toInt

/-- R10: `wrap32` inside `i32` keeps the value. -/
theorem toInt_wrap32 {v : Int} (h : InI32 v) : (wrap32 v).toInt = v := by
  obtain ⟨hlo, hhi⟩ := h
  simp only [intMin, intMax] at hlo hhi
  rw [wrap32, BitVec.toInt_ofInt]
  exact Int.bmod_eq_of_le (by omega) (by omega)

/-- R10, R144: `wrap32` gives the one content congruent to the value. -/
theorem wrap32_eq_of_dvd {v : Int} {w : Word} (h : (2 ^ 32 : Int) ∣ v - w.toInt) : wrap32 v = w := by
  have hmod : v.bmod (2 ^ 32) = w.toInt.bmod (2 ^ 32) := by
    rw [Int.bmod_eq_bmod_iff_bmod_sub_eq_zero]
    exact Int.bmod_eq_zero_of_dvd h
  apply BitVec.eq_of_toInt_eq
  rw [wrap32, BitVec.toInt_ofInt, hmod, ← BitVec.toInt_ofInt, BitVec.ofInt_toInt]

theorem State.putExact_toInt (s : State) (k : Reg) (w : Word) : s.putExact k w.toInt = afterWrite s k w := by
  rw [State.putExact, if_pos (toInt_inI32 w), wrap32_toInt, State.put_eq_afterWrite]

/-- R144: outside `i32` the mode decides, and wrap mode's content is the one congruent to the result. -/
theorem State.putExact_overflow {s : State} {v : Int} (h : ¬ InI32 v) (k : Reg) :
    (s.config.overflowMode = .fault → (.next (s.putExact k v) : Result) = .next (faultedWith s .arithOverflow)) ∧
    (s.config.overflowMode = .wrap → ∀ w : Word, (2 ^ 32 : Int) ∣ v - w.toInt →
      (.next (s.putExact k v) : Result) = .next (afterWrite s k w)) := by
  refine ⟨fun hm => ?_, fun hm w hw => ?_⟩ <;> rw [State.putExact, if_neg h, hm]
  · rfl
  · rw [← State.put_eq_afterWrite, ← wrap32_eq_of_dvd hw]

section

variable {p q d : Byte} {s : State} {i j k : Reg} (hp : s.PointsTo p i) (hq : s.PointsTo q j) (hd : s.PointsTo d k)
include hp hq hd

theorem exec_add_of_pointsTo : exec (.add p q d) s = .next (s.putExact k ((s.x i).toInt + (s.x j).toInt)) :=
  State.withPtr3_of_pointsTo hp hq hd _

theorem exec_sub_of_pointsTo : exec (.sub p q d) s = .next (s.putExact k ((s.x i).toInt - (s.x j).toInt)) :=
  State.withPtr3_of_pointsTo hp hq hd _

theorem exec_div_of_pointsTo : exec (.div p q d) s = .next (s.divide (s.x i).toInt (s.x j).toInt k) :=
  State.withPtr3_of_pointsTo hp hq hd _

end

/-- Settles O24: the exact result is the value of a content, so it lies in `i32`. -/
theorem addSubWriteExactResult : Obligations.AddSubWriteExactResult := by
  intro p q d s i j k w hp hq hd
  rw [exec_add_of_pointsTo hp hq hd, exec_sub_of_pointsTo hp hq hd]
  constructor <;> intro hw <;> rw [← hw, State.putExact_toInt]

/-- Settles O25: outside `i32` the mode decides, for the sum as for the difference. -/
theorem addSubOverflow : Obligations.AddSubOverflow := by
  intro p q d s i j k hp hq hd
  rw [exec_add_of_pointsTo hp hq hd, exec_sub_of_pointsTo hp hq hd]
  exact ⟨fun hout => State.putExact_overflow hout k, fun hout => State.putExact_overflow hout k⟩

/-- R10: but for a divisor 1 or -1 the quotient is at most half as large as the dividend. -/
theorem two_mul_natAbs_tdiv_le {a b : Int} (hone : b ≠ 1) (hneg : b ≠ -1) : 2 * (a.tdiv b).natAbs ≤ a.natAbs := by
  rw [Int.natAbs_tdiv]
  change 2 * (a.natAbs / b.natAbs) ≤ a.natAbs
  obtain hb | hb : b.natAbs = 0 ∨ 2 ≤ b.natAbs := by omega
  · simp [hb]
  · calc 2 * (a.natAbs / b.natAbs) ≤ b.natAbs * (a.natAbs / b.natAbs) := Nat.mul_le_mul_right _ hb
      _ ≤ a.natAbs := Nat.mul_div_le _ _

/-- R143: the quotient of two values in `i32` lies in `i32` but for INT_MIN / -1. -/
theorem tdiv_inI32 {a b : Int} (ha : InI32 a) (hover : ¬ (a = intMin ∧ b = -1)) : InI32 (tdiv a b) := by
  unfold InI32 intMin intMax at *
  unfold tdiv
  by_cases hone : b = 1
  · rwa [hone, Int.tdiv_one]
  by_cases hneg : b = -1
  · rw [hneg, Int.tdiv_neg, Int.tdiv_one]
    omega
  have hhalf := two_mul_natAbs_tdiv_le (a := a) hone hneg
  omega

theorem trem_eq_tmod (a b : Int) : trem a b = a.tmod b := by
  rw [trem, tdiv, Int.tmod_def]

/-- R143, R145: the remainder is smaller than the divisor, and zero or of the dividend's sign. -/
theorem trem_bounds {a b : Int} (hb : b ≠ 0) :
    |trem a b| < |b| ∧ (trem a b < 0 → a < 0) ∧ (0 < trem a b → 0 < a) := by
  rw [trem_eq_tmod]
  refine ⟨?_, fun h => ?_, fun h => ?_⟩
  · rw [Int.abs_eq_natAbs, Int.abs_eq_natAbs, Int.natAbs_tmod]
    exact_mod_cast Nat.mod_lt _ (Int.natAbs_pos.mpr hb)
  · by_contra hneg
    have := Int.tmod_nonneg b (not_lt.mp hneg)
    omega
  · by_contra hpos
    have := Int.tmod_nonneg b (a := -a) (by omega)
    rw [Int.neg_tmod] at this
    omega

/-- R143: the remainder of two values in `i32` lies in `i32`. -/
theorem trem_inI32 {a b : Int} (hb : InI32 b) (hne : b ≠ 0) : InI32 (trem a b) := by
  obtain ⟨hlt, -, -⟩ := trem_bounds (a := a) hne
  unfold InI32 intMin intMax at *
  rw [Int.abs_eq_natAbs, Int.abs_eq_natAbs] at hlt
  omega

/-- Settles O26: quotient and remainder are contents, since they lie in `i32`; the remainder's bounds are those of
truncating division. -/
theorem divTruncates : Obligations.DivTruncates := by
  intro p q d s i j k hp hq hd hne hover
  have hqt := toInt_wrap32 (tdiv_inI32 (toInt_inI32 (s.x i)) hover)
  have hrm := toInt_wrap32 (trem_inI32 (a := (s.x i).toInt) (toInt_inI32 (s.x j)) hne)
  obtain ⟨hlt, hneg, hpos⟩ := trem_bounds (a := (s.x i).toInt) hne
  refine ⟨wrap32 (tdiv (s.x i).toInt (s.x j).toInt), wrap32 (trem (s.x i).toInt (s.x j).toInt), ?_, ?_, ?_, ?_, ?_⟩
  · rw [hqt, hrm, trem]; ring
  · rwa [hrm]
  · rwa [hrm]
  · rwa [hrm]
  · rw [exec_div_of_pointsTo hp hq hd, State.divide, if_neg hne, if_neg hover, State.finish_write_eq]
    rfl

/-- Settles O27: divisor 0 is looked at first; INT_MIN / -1 has a divisor other than 0. -/
theorem divFaults : Obligations.DivFaults := by
  intro p q d s i j k hp hq hd
  rw [exec_div_of_pointsTo hp hq hd, State.divide]
  refine ⟨fun hzero => ?_, fun hover => ?_⟩
  · rw [if_pos hzero]; rfl
  · have hne : (s.x j).toInt ≠ 0 := by rw [hover.2]; decide
    rw [if_neg hne, if_pos hover]; rfl

end Sys2Proof.Machine
end

section
/-! PROOFS. EQ, NEQ, AND, OR, NOT (spec/42_compare_logic.md). -/

namespace Sys2Proof.Machine

open Sys2Proof.Claims

/-- The content a truth value stands for, in the words of the statements. -/
theorem boolWord_eq_ite (b : Bool) : boolWord b = if b then 1 else 0 := rfl

theorem toInt_eq_zero_iff {v : Word} : v.toInt = 0 ↔ v = 0 := by
  rw [← BitVec.toInt_inj]; rfl

theorem toInt_eq_one_iff {v : Word} : v.toInt = 1 ↔ v = 1 := by
  rw [← BitVec.toInt_inj]; rfl

/-- R162: a truth value is in the boolean domain. -/
theorem inBoolDomain_boolWord (b : Bool) : inBoolDomain (boolWord b) = true := by cases b <;> rfl

theorem boolWord_eq_one_iff (b : Bool) : (boolWord b == 1) = b := by cases b <;> rfl

/-- R165: NOT's result on a truth value. -/
theorem one_sub_boolWord (b : Bool) : 1 - boolWord b = boolWord (!b) := by cases b <;> rfl

/-- R162: outside the boolean domain, by the value. -/
theorem inBoolDomain_eq_false {v : Word} (h : v.toInt ≠ 0 ∧ v.toInt ≠ 1) : inBoolDomain v = false := by
  rw [Ne, Ne, toInt_eq_zero_iff, toInt_eq_one_iff] at h
  rw [inBoolDomain, Bool.or_eq_false_iff, beq_eq_false_iff_ne, beq_eq_false_iff_ne]
  exact h

/-- R162: sources in the domain. -/
theorem State.putBool_true (s : State) (k : Reg) (v : Word) : s.putBool true k v = afterWrite s k v :=
  s.put_eq_afterWrite k v

/-- R162: a source outside the domain. -/
theorem State.putBool_false (s : State) (k : Reg) (v : Word) :
    s.putBool false k v = afterEvent s (Claims.softEvent s 2 0) .advance nextSlot :=
  s.emitThen_eq_afterEvent _ .advance

section

variable {p q d : Byte} {s : State} {i j k : Reg} (hp : s.PointsTo p i) (hq : s.PointsTo q j)

include hp hq

theorem exec_not_of_pointsTo : exec (.not p q) s = .next (s.putBool (inBoolDomain (s.x i)) j (1 - s.x i)) :=
  State.withPtr2_of_pointsTo hp hq _

variable (hd : s.PointsTo d k)
include hd

theorem exec_eq_of_pointsTo : exec (.eq p q d) s = .next (s.put k (boolWord (s.x i == s.x j))) :=
  State.withPtr3_of_pointsTo hp hq hd _

theorem exec_neq_of_pointsTo : exec (.neq p q d) s = .next (s.put k (boolWord (s.x i != s.x j))) :=
  State.withPtr3_of_pointsTo hp hq hd _

theorem exec_and_of_pointsTo : exec (.and p q d) s =
    .next (s.putBool (inBoolDomain (s.x i) && inBoolDomain (s.x j)) k (boolWord (s.x i == 1 && s.x j == 1))) :=
  State.withPtr3_of_pointsTo hp hq hd _

theorem exec_or_of_pointsTo : exec (.or p q d) s =
    .next (s.putBool (inBoolDomain (s.x i) && inBoolDomain (s.x j)) k (boolWord (s.x i == 1 || s.x j == 1))) :=
  State.withPtr3_of_pointsTo hp hq hd _

end

/-- Settles O28: contents are equal exactly when their values are. -/
theorem eqNeqWriteTruthValue : Obligations.EqNeqWriteTruthValue := by
  intro p q d s i j k hp hq hd
  rw [exec_eq_of_pointsTo hp hq hd, exec_neq_of_pointsTo hp hq hd, State.put_eq_afterWrite, State.put_eq_afterWrite]
  by_cases h : s.x i = s.x j
  · simp [h, boolWord]
  · simp [h, boolWord, BitVec.toInt_inj]

/-- Settles O29: sources that are truth values are in the domain, and the results are those of the truth tables. -/
theorem booleanTruthTables : Obligations.BooleanTruthTables := by
  intro p q d s i j k a b hp hq ha
  rw [← boolWord_eq_ite] at ha
  refine ⟨fun hd hb => ?_, ?_⟩
  · rw [← boolWord_eq_ite] at hb
    rw [exec_and_of_pointsTo hp hq hd, exec_or_of_pointsTo hp hq hd]
    simp only [ha, hb, inBoolDomain_boolWord, boolWord_eq_one_iff, Bool.and_self, State.putBool_true]
    exact ⟨rfl, rfl⟩
  · rw [exec_not_of_pointsTo hp hq, ha, inBoolDomain_boolWord, State.putBool_true, one_sub_boolWord]
    cases a <;> rfl

/-- Settles O30: one source outside {0,1} puts the instruction outside the domain. -/
theorem booleanDomainSoftError : Obligations.BooleanDomainSoftError := by
  intro p q d s i j k hp hq hd
  rw [exec_and_of_pointsTo hp hq hd, exec_or_of_pointsTo hp hq hd, exec_not_of_pointsTo hp hq]
  refine ⟨fun h => ?_, fun h => ?_⟩
  · have hout : (inBoolDomain (s.x i) && inBoolDomain (s.x j)) = false := by
      rw [Bool.and_eq_false_iff]
      exact h.imp inBoolDomain_eq_false inBoolDomain_eq_false
    rw [hout, State.putBool_false, State.putBool_false]
    exact ⟨rfl, rfl⟩
  · rw [inBoolDomain_eq_false h, State.putBool_false]

end Sys2Proof.Machine
end

section
/-! PROOFS. SWP, GET, LOCKR (spec/43_register_ops.md). -/

namespace Sys2Proof.Machine

open Sys2Proof.Claims

/-- R118 with `ev_ready` high: what the lock-checked write leaves, its event being accepted at once. -/
def State.writeAtOnce (s : State) (k : Reg) (v : Word) : State :=
  if s.locked k then s.record (lockedEvent s k) else s.setX k v

section

variable (s : State) (k : Reg) (v : Word)

theorem State.writeAtOnce_of_locked {s : State} {k : Reg} (h : s.locked k = true) :
    s.writeAtOnce k v = s.record (lockedEvent s k) := if_pos h

theorem State.writeAtOnce_of_unlocked {s : State} {k : Reg} (h : s.locked k = false) : s.writeAtOnce k v = s.setX k v :=
  if_neg (by simp [h])

/-- R118: nothing but the register file and the trace. -/
theorem State.writeAtOnce_frame :
    s.writeAtOnce k v = { s with regs := (s.writeAtOnce k v).regs, events := (s.writeAtOnce k v).events } := by
  cases h : s.locked k
  · rw [State.writeAtOnce_of_unlocked v h]; rfl
  · rw [State.writeAtOnce_of_locked v h]; rfl

@[simp] theorem State.writeAtOnce_evReady : (s.writeAtOnce k v).evReady = s.evReady := by rw [State.writeAtOnce_frame]
@[simp] theorem State.writeAtOnce_line : (s.writeAtOnce k v).line = s.line := by rw [State.writeAtOnce_frame]
@[simp] theorem State.writeAtOnce_locked (r : Reg) : (s.writeAtOnce k v).locked r = s.locked r := by
  rw [State.writeAtOnce_frame]; rfl

@[simp] theorem State.writeAtOnce_x (r : Reg) :
    (s.writeAtOnce k v).x r = if k = r ∧ s.locked k = false then v else s.x r := by
  cases h : s.locked k
  · rw [State.writeAtOnce_of_unlocked v h]; simp
  · rw [State.writeAtOnce_of_locked v h]; simp

@[simp] theorem State.writeAtOnce_events :
    (s.writeAtOnce k v).events = s.events ++ if s.locked k then [lockedEvent s k] else [] := by
  cases h : s.locked k
  · rw [State.writeAtOnce_of_unlocked v h]; simp
  · rw [State.writeAtOnce_of_locked v h]; rfl

/-- R118, R250: with `ev_ready` high the instruction goes on after the write. -/
theorem State.finish_write_of_ready {s : State} (h : s.evReady = true) (k : Reg) (v : Word) (r : Rest) :
    State.finish (.write k v r) s = State.finish r (s.writeAtOnce k v) := by
  rw [State.finish, State.writeAtOnce, h]
  cases s.locked k <;> rfl

end

/-- A soft error of a state on the same line is the same event. -/
theorem lockedEvent_congr {s t : State} (h : t.line = s.line) (k : Reg) : lockedEvent t k = lockedEvent s k := by
  rw [lockedEvent, Claims.softEvent, h]; rfl

/-- R180. -/
theorem exec_swp_of_pointsTo {p q : Byte} {s : State} {i j : Reg} (hp : s.PointsTo p i) (hq : s.PointsTo q j) :
    exec (.swp p q) s = .next (State.finish (.write i (s.x j) (.write j (s.x i) .advance)) s) :=
  State.withPtr2_of_pointsTo hp hq _

/-- R180 with `ev_ready` high: both writes are done, each checked on its own. -/
theorem exec_swp_of_ready {p q : Byte} {s : State} {i j : Reg} (hp : s.PointsTo p i) (hq : s.PointsTo q j)
    (hready : s.evReady = true) :
    exec (.swp p q) s = .next ((s.writeAtOnce i (s.x j)).writeAtOnce j (s.x i)).advance := by
  rw [exec_swp_of_pointsTo hp hq, State.finish_write_of_ready hready, State.finish_write_of_ready (by simpa using hready)]
  rfl

/-- Settles O31: the two writes as R118 gives them; with `ev_ready` high the second reads the locks the first has left, and
each register holds what its own write has put there, i = j included. -/
theorem swpExchanges : Obligations.SwpExchanges := by
  intro p q s i j hp hq
  refine ⟨by rw [exec_swp_of_pointsTo hp hq, State.finish_write_eq]; rfl,
    fun hready => ⟨_, exec_swp_of_ready hp hq hready, ?first, ?second, fun r hi hj => ?other, ?events, ?frame⟩⟩
  case first =>
    rcases eq_or_ne i j with rfl | hij
    · simp
    · cases hi : s.locked i <;> simp [hij.symm, hi]
  case second =>
    rcases eq_or_ne i j with rfl | hij
    · simp
    · cases hj : s.locked j <;> simp [hij, hj]
  case other => simp [Ne.symm hi, Ne.symm hj]
  case events => simp [lockedEvent_congr (State.writeAtOnce_line s i (s.x j))]
  case frame =>
    rw [State.advance_eq_nextSlot, State.writeAtOnce_frame, State.writeAtOnce_frame s]
    rfl

/-- R181, after its operands: id 0. -/
theorem State.getHidden_true (s : State) (d : Reg) : s.getHidden true d =
    afterWriteThen s d s.rem (.setRem 0 .advance) fun u => nextSlot { u with rem := 0 } :=
  s.finish_write_eq d s.rem (.setRem 0 .advance)

/-- R181, after its operands: any other id. -/
theorem State.getHidden_false (s : State) (d : Reg) : s.getHidden false d = afterWrite s d 0 := s.put_eq_afterWrite d 0

theorem exec_get_literal {k p : Byte} {s : State} {d : Reg} (hp : s.PointsTo p d) (hm : s.config.getIdMode = .literal) :
    exec (.get k p) s = .next (s.getHidden (k == 0) d) := by
  rw [exec, execGet, hm]
  exact State.withPtr_of_pointsTo hp _

theorem exec_get_indirect {k p : Byte} {s : State} {i d : Reg} (hk : s.PointsTo k i) (hp : s.PointsTo p d)
    (hm : s.config.getIdMode = .indirect) : exec (.get k p) s = .next (s.getHidden (s.x i == 0) d) := by
  rw [exec, execGet, hm]
  exact State.withPtr2_of_pointsTo hk hp _

/-- Settles O32: in each mode the id is compared with 0. -/
theorem getReadsHiddenRegister : Obligations.GetReadsHiddenRegister := by
  intro k p s d hp
  refine ⟨fun hm => ?_, fun hm i hk => ?_⟩
  · rw [exec_get_literal hp hm]
    refine ⟨fun hz => ?_, fun hz => ?_⟩
    · rw [beq_iff_eq.mpr hz, State.getHidden_true]
    · rw [beq_eq_false_iff_ne.mpr hz, State.getHidden_false]
  · rw [exec_get_indirect hk hp hm, Ne, toInt_eq_zero_iff]
    refine ⟨fun hz => ?_, fun hz => ?_⟩
    · rw [beq_iff_eq.mpr hz, State.getHidden_true]
    · rw [beq_eq_false_iff_ne.mpr hz, State.getHidden_false]

/-- Settles O33: the toggle, then the next slot. -/
theorem lockrToggles : Obligations.LockrToggles := by
  intro p s r hp
  have hexec : exec (.lockr p) s = .next (s.toggleLock r).advance := State.withPtr_of_pointsTo hp _
  refine ⟨_, hexec, by simp, fun r' hr => by simp [hr.symm], ?_⟩
  rw [State.advance_eq_nextSlot]
  rfl

end Sys2Proof.Machine
end

section
/-! PROOFS. PUSHRTS and POPRFS (spec/44_stack.md R190, R191). -/

namespace Sys2Proof.Machine

open Sys2Proof.Claims

/-- Settles O34: by the test of the depth. -/
theorem pushrtsPushesAndClears : Obligations.PushrtsPushesAndClears := by
  intro p s r hp
  have hexec : exec (.pushrts p) s = .next (s.pushFrom r) := State.withPtr_of_pointsTo hp _
  refine ⟨fun hroom => ?_, fun hfull => ?_⟩ <;> rw [hexec, State.pushFrom]
  · rw [if_neg (by omega), State.put_eq_afterWrite]; rfl
  · rw [if_pos hfull.ge]; rfl

/-- Settles O35: by whether the stack has a top. -/
theorem poprfsPops : Obligations.PoprfsPops := by
  intro p s r hp
  have hexec : exec (.poprfs p) s = .next (s.popInto r) := State.withPtr_of_pointsTo hp _
  refine ⟨fun st v htop => ?_, fun hempty => ?_⟩ <;> rw [hexec, State.popInto]
  · rw [htop, List.getLast?_concat, List.dropLast_concat]
    exact congrArg Host.Outcome.next (State.put_eq_afterWrite _ r v)
  · rw [hempty]; rfl

end Sys2Proof.Machine
end

section
/-! PROOFS. JMP, RJMP, JEQ, JNEQ, LABEL, GOTO (spec/45_control.md). -/

namespace Sys2Proof.Machine

open Sys2Proof.Claims

/-- R120: the value of a content never exceeds 2^31 - 1. -/
theorem toNat_le_maxLine_of_toInt {v l : Word} (h : v.toInt = l.toNat) : l.toNat ≤ maxLine := by
  have := v.toInt_lt
  unfold maxLine
  omega

/-- Settles O37: the branch primitive at the content, and at the line plus the content. -/
theorem jumpsLandOnLine : Obligations.JumpsLandOnLine := by
  intro p s i hp
  have hjmp : exec (.jmp p) s = .next (s.branchTo (s.x i).toInt) := State.withPtr_of_pointsTo hp _
  have hrjmp : exec (.rjmp p) s = .next (s.branchTo (s.line.toNat + (s.x i).toInt)) := State.withPtr_of_pointsTo hp _
  rw [hjmp, hrjmp]
  exact ⟨fun l hl hv => by rw [s.branchTo_eq_branchedTo hl hv], fun h => by rw [s.branchTo_eq_faultedWith (.inl h)],
    fun l hl hv => by rw [s.branchTo_eq_branchedTo hl hv], fun h => by rw [s.branchTo_eq_faultedWith h]⟩

/-- R202, R203: a condition that does not hold. -/
theorem State.branchWhen_of_ne {s : State} {v w : Word} (h : v ≠ w) (t : Int) : s.branchWhen (v == w) t = nextSlot s := by
  rw [State.branchWhen, beq_eq_false_iff_ne.mpr h]
  exact s.advance_eq_nextSlot

/-- R202, R203: a condition that holds. -/
theorem State.branchWhen_of_eq {s : State} {v w : Word} (h : v = w) (t : Int) : s.branchWhen (v == w) t = s.branchTo t := by
  rw [State.branchWhen, if_pos (beq_iff_eq.mpr h)]

/-- Settles O38: by the condition, and where it holds by the target. -/
theorem conditionalBranches : Obligations.ConditionalBranches := by
  intro p q s i j hp hq
  have hjeq : exec (.jeq p q) s = .next (s.branchWhen (s.x i == 1) (s.x j).toInt) := State.withPtr2_of_pointsTo hp hq _
  have hjneq : exec (.jneq p q) s = .next (s.branchWhen (s.x i == 0) (s.x j).toInt) := State.withPtr2_of_pointsTo hp hq _
  rw [hjeq, hjneq, Ne, Ne, toInt_eq_zero_iff, toInt_eq_one_iff]
  refine ⟨fun h => by rw [State.branchWhen_of_ne h], fun h => by rw [State.branchWhen_of_ne h], fun l hl => ?_, fun hneg => ?_⟩
  · have hland := s.branchTo_eq_branchedTo (toNat_le_maxLine_of_toInt hl) hl
    exact ⟨fun h => by rw [State.branchWhen_of_eq h, hland], fun h => by rw [State.branchWhen_of_eq h, hland]⟩
  · have hfault := s.branchTo_eq_faultedWith (.inl hneg)
    exact ⟨fun h => by rw [State.branchWhen_of_eq h, hfault], fun h => by rw [State.branchWhen_of_eq h, hfault]⟩

/-- Settles O39: by whether the id is bound. -/
theorem labelBindsFirst : Obligations.LabelBindsFirst := by
  intro k s
  refine ⟨_, rfl, ?_⟩
  cases hv : (s.labelAt k).valid
  · simp only [Bool.false_eq_true, if_false]
    refine ⟨by simp, fun k' hk => by simp [hk.symm], ?_⟩
    rw [State.advance_eq_nextSlot]; rfl
  · simp only [if_true]
    refine ⟨by simp, fun k' _ => by simp, ?_⟩
    rw [State.advance_eq_nextSlot]

/-- R205. -/
theorem exec_goto_of_bound {k : Byte} {s : State} (h : (s.labelAt k).valid = true) :
    exec (.goto k) s = .next (s.branchTo (s.labelAt k).loc.toNat) := by
  rw [exec, execGoto, if_pos h]

/-- R205, R206. -/
theorem exec_goto_of_unbound {k : Byte} {s : State} (h : (s.labelAt k).valid = false) :
    exec (.goto k) s = .next (afterEvent s (Claims.softEvent s 3 (BitVec.ofNat 32 k.toNat)) .unresolvedGoto afterUnresolved) := by
  have hdata : k.setWidth 32 = BitVec.ofNat 32 k.toNat := BitVec.eq_of_toNat_eq (by simp)
  rw [exec, execGoto, if_neg (by simp [h]), State.emitThen_eq_afterEvent, State.softEvent_eq, hdata]
  rfl

/-- Settles O40: the location is a line that a branch may name. -/
theorem gotoGoesToBoundLine : Obligations.GotoGoesToBoundLine := by
  intro k s hv hle
  rw [exec_goto_of_bound hv, s.branchTo_eq_branchedTo hle rfl]

/-- R250: what follows an event depends on the state after the event only. -/
theorem afterEvent_congr {s : State} {e : Event} (r : Rest) {f g : State → State} (h : f (withEvent s e) = g (withEvent s e)) :
    afterEvent s e r f = afterEvent s e r g := by
  rw [afterEvent, afterEvent, h]

/-- Settles O41: the event leaves the policy as it is. -/
theorem unboundGotoPolicies : Obligations.UnboundGotoPolicies := by
  intro k s hv e
  rw [exec_goto_of_unbound hv]
  refine ⟨fun hm => ?_, fun hm => ?_, fun hm => ?_⟩ <;>
    exact congrArg Host.Outcome.next (afterEvent_congr _ (by rw [afterUnresolved, show (withEvent s e).config = s.config from rfl, hm]))

end Sys2Proof.Machine
end

section
/-! PROOFS. VMCALL, BREAK, HLT, IGL (spec/46_system.md). -/

namespace Sys2Proof.Machine

open Sys2Proof.Claims

/-- Settles O42: by the name. -/
theorem vmcallPrintsExitsOrFaults : Obligations.VmcallPrintsExitsOrFaults := by
  intro p q r s i j k hp hq hr
  have hexec : exec (.vmcall p q r) s = .next (s.hostCall (s.x i) (s.x j) (s.x k)) :=
    State.withPtr3_of_pointsTo hp hq hr _
  rw [hexec, State.hostCall]
  simp only [ne_eq, toInt_eq_zero_iff, toInt_eq_one_iff]
  refine ⟨fun h0 => ?_, fun h1 => ?_, fun ⟨h0, h1⟩ => ?_⟩
  · rw [if_pos h0, State.emitThen_eq_afterEvent]; rfl
  · rw [if_neg (by rw [h1]; decide), if_pos h1]; rfl
  · rw [if_neg h0, if_neg h1]; rfl

/-- R42: a resume at the head of the schedule is taken off it and performed. -/
theorem step_resume_cons (s : State) (rest : List HostAction) :
    step { s with inbox := .resume :: rest } = .next { s with inbox := rest }.hostResume := rfl

/-- Settles O43: the resume is the rest of the BREAK. -/
theorem breakSuspendsUntilResume : Obligations.BreakSuspendsUntilResume := by
  intro s rest
  refine ⟨fun hrun => ⟨rfl, ?_⟩, fun hne => ?_⟩
  · have hadv : ({ s with runState := .suspended, inbox := rest } : State).hostResume =
        { s with inbox := rest, runState := .running }.advance := if_pos rfl
    rw [step_resume_cons { s with runState := .suspended }, hadv, State.advance_eq_nextSlot, ← hrun]
    rfl
  · rw [step_resume_cons, State.hostResume, if_neg hne]

/-- Settles O44: both are `Halt` and leave the counters. -/
theorem hltAndIglHalt : Obligations.HltAndIglHalt := fun s =>
  ⟨congrArg Host.Outcome.next (s.halt_eq_haltedWith .hlt 0),
    fun op _ => congrArg Host.Outcome.next (State.halt_eq_haltedWith { s with illegalByte := op } .illegal 4)⟩

end Sys2Proof.Machine
end

section
/-! PROOFS. The host and the ports (spec/10_state.md R29, R40, R41, spec/70_reset_and_hazards.md R280, R281). -/

namespace Sys2Proof.Machine

open Sys2Proof.Claims

/-- R41: the address of a register reads the register. -/
theorem State.dbgRead_reg {s : State} (h : s.runState ≠ .running) (i : Reg) :
    s.dbgRead (BitVec.ofNat 6 i.val) = some (s.x i, s.locked i) := by
  have hi : (BitVec.ofNat 6 i.val).toNat = i.val := by
    have := i.isLt
    rw [BitVec.toNat_ofNat, Nat.mod_eq_of_lt (by omega)]
  simp [State.dbgRead, h, hi]

/-- R41: the address 32 reads `rem`, whose lock flag is 0. -/
theorem State.dbgRead_rem {s : State} (h : s.runState ≠ .running) : s.dbgRead 32 = some (s.rem, false) := by
  simp [State.dbgRead, h]

/-- R41: the addresses beyond read 0. -/
theorem State.dbgRead_beyond {s : State} (h : s.runState ≠ .running) {a : BitVec 6} (ha : 33 ≤ a.toNat) :
    s.dbgRead a = some (0, false) := by
  rw [State.dbgRead, if_neg h, dif_neg (by omega), if_neg (by omega)]

/-- Settles O54: by the address. -/
theorem debugPortReads : Obligations.DebugPortReads := fun _ h =>
  ⟨State.dbgRead_reg h, State.dbgRead_rem h, fun _ => State.dbgRead_beyond h, if_neg h, if_neg h⟩

/-- R41: a debug port whose registers, locks and `rem` are all 0 reads 0 everywhere. -/
theorem State.dbgRead_eq_zero {s : State} (h : s.runState ≠ .running) (hregs : ∀ i, s.x i = 0 ∧ s.locked i = false)
    (hrem : s.rem = 0) (a : BitVec 6) : s.dbgRead a = some (0, false) := by
  rw [State.dbgRead, if_neg h]
  split_ifs
  · rw [(hregs _).1, (hregs _).2]
  · rw [hrem]
  · rfl

/-- The reset values but for the host's own lines and plans: what `rst` leaves (log 6, log 11). -/
def resetKeeping (c : Config) (ready : Bool) (inbox : List HostAction) : State :=
  { State.reset with config := c, evReady := ready, inbox := inbox }

theorem State.hostReset_eq (s : State) : s.hostReset = resetKeeping s.config s.evReady s.inbox := rfl

theorem State.reset_eq : State.reset = resetKeeping .spec true [] := rfl

section

variable (c : Config) (ready : Bool) (inbox : List HostAction)

theorem resetKeeping_x (i : Reg) : (resetKeeping c ready inbox).x i = 0 := State.reset_x i

theorem resetKeeping_locked (i : Reg) : (resetKeeping c ready inbox).locked i = false := by
  simp [State.locked, resetKeeping, State.reset, Vector.get_eq_getElem]

theorem resetKeeping_labelAt (k : Byte) : (resetKeeping c ready inbox).labelAt k =
    if k = 0 then { valid := true, loc := 0 } else { valid := false, loc := 0 } := State.reset_labelAt k

theorem resetKeeping_hasResetValues : HasResetValues (resetKeeping c ready inbox) where
  regs i := ⟨resetKeeping_x c ready inbox i, resetKeeping_locked c ready inbox i⟩
  rem := rfl
  stack := rfl
  sentinel := resetKeeping_labelAt c ready inbox 0
  labels k hk := by rw [resetKeeping_labelAt, if_neg hk]
  counters := ⟨rfl, rfl⟩
  state := rfl
  status := ⟨(by decide : State.reset.status = 0), rfl, rfl, rfl⟩
  program := ⟨rfl, fun _ => rfl⟩
  port := rfl
  outputs := ⟨rfl, rfl, State.reset_usageCount⟩
  debug := State.dbgRead_eq_zero (by decide : State.reset.runState ≠ .running)
    (fun i => ⟨resetKeeping_x c ready inbox i, resetKeeping_locked c ready inbox i⟩) rfl

end

/-- Settles O51: both are reset states that keep the host's own fields. -/
theorem resetFromAnyState : Obligations.ResetFromAnyState := by
  refine ⟨State.reset_eq ▸ resetKeeping_hasResetValues _ _ _, fun s rest h => ⟨resetKeeping s.config s.evReady rest, ?_, ?_, rfl⟩⟩
  · have hreset : step s = .next ({ s with inbox := rest } : State).hostReset := by rw [step, cycle, h]; rfl
    rw [hreset, State.hostReset_eq]
  · exact resetKeeping_hasResetValues _ _ _

/-- Settles O52: the load stores the bytes from address 0 on, in canonical form. -/
theorem programLoad : Obligations.ProgramLoad := by
  intro s bytes rest h
  have hstep : step s = ({ s with inbox := rest } : State).hostLoad bytes := by rw [step, cycle, h]; rfl
  rw [hstep, State.hostLoad]
  refine ⟨fun hidle hle => ?fits, fun hidle hlt => ?tooLong, fun hne => ?elsewhere⟩
  case fits =>
    rw [if_pos hidle, if_neg (by omega)]
    refine ⟨_, rfl, rfl, Memory.wf_ofBytes bytes, fun a ha => ?_, rfl⟩
    have hread := Memory.read_ofBytes (a := 0) ha
    rwa [Nat.zero_add] at hread
  case tooLong => rw [if_pos hidle, if_pos hlt]
  case elsewhere => rw [if_neg hne]

/-- R42: an acceptance at the head of the schedule is taken off it and performed. -/
theorem step_accept_cons (s : State) (rest : List HostAction) :
    step { s with inbox := .accept :: rest } = .next { s with inbox := rest }.hostAccept := rfl

/-- Settles O57: the port reads the trace while an instruction waits; the other clauses are the transactions' own tests. -/
theorem eventPortPresentsUnaccepted : Obligations.EventPortPresentsUnaccepted := by
  intro s rest
  refine ⟨fun es e hes hst => ?_, fun hst => if_pos hst, fun level => rfl, fun h => ?_⟩
  · rw [State.evPort, if_neg hst, hes, List.getLast?_concat]
  · rcases State.hostAccept_cases { s with inbox := rest } with ⟨r, hrun, hst, -⟩ | ⟨-, e⟩
    · rcases h with h | h
      · exact nomatch h.symm.trans hst
      · exact absurd hrun h
    · rw [step_accept_cons, e]

/-- Settles O58: the acceptance, of either kind, is `finish` of the rest from the state without the wait. -/
theorem acceptanceContinuesInstruction : Obligations.AcceptanceContinuesInstruction := by
  intro s r hrun hst
  refine ⟨fun hinbox hready => ?_, fun rest => ?_⟩
  · rw [step_eq_coreStep hinbox, ← State.finish_eq_continued]
    simp only [coreStep, State.acceptEvent, hrun, hst, hready, if_true]
  · rw [step_accept_cons, ← State.finish_eq_continued]
    simp only [State.hostAccept, State.acceptEvent, hrun, hst, if_true]

end Sys2Proof.Machine
end

section
/-! PROOFS. The status word under the invariant (spec/10_state.md R29, spec/60_exceptions.md R241, R243). -/

namespace Sys2Proof.Machine

/-- R29: the status word by its four fields. -/
theorem State.status_eq {s : State} {b : Byte} {f : FaultCause} {h : HaltCause} {r : RunState} (hb : s.illegalByte = b)
    (hf : s.faultCause = f) (hh : s.haltCause = h) (hr : s.runState = r) :
    s.status = 0#8 ++ b ++ 0#4 ++ f.code ++ 0#3 ++ h.code ++ r.code := by
  rw [State.status, hb, hf, hh, hr]

/-- R29, R243: the word of a core halted with ILLEGAL, for each of the 256 bytes. -/
theorem status_word_illegal (b : Byte) :
    0#8 ++ b ++ 0#4 ++ FaultCause.none.code ++ 0#3 ++ HaltCause.illegal.code ++ RunState.halted.code =
      0x1B + BitVec.ofNat 32 b.toNat * 0x10000 := by
  revert b
  decide

/-- R241: no fault is recorded in a core that is not FAULTED. -/
theorem State.StatusOk.faultCause_eq_none {s : State} (h : s.StatusOk) (hr : s.runState ≠ .faulted) : s.faultCause = .none :=
  not_not.mp fun hf => hr (h.fault_iff.mp hf)

/-- R29: no byte is recorded in a core that is not halted with ILLEGAL. -/
theorem State.StatusOk.illegalByte_eq_zero {s : State} (h : s.StatusOk) {c : HaltCause} (hc : s.haltCause = c)
    (hne : c ≠ .illegal) : s.illegalByte = 0 := h.not_illegal (hc ▸ hne)

/-- R29: the fields other than the run state, before the core stops. -/
theorem State.StatusOk.status_of_live {s : State} (h : s.StatusOk) {r : RunState} (hr : s.runState = r) (hh : r ≠ .halted)
    (hf : r ≠ .faulted) :
    s.status = 0#8 ++ 0#8 ++ 0#4 ++ FaultCause.none.code ++ 0#3 ++ HaltCause.hlt.code ++ r.code := by
  obtain ⟨hhalt, -⟩ := h.not_halted (hr ▸ hh)
  exact State.status_eq (h.illegalByte_eq_zero hhalt (by decide)) (h.faultCause_eq_none (hr ▸ hf)) hhalt hr

/-- R29, R243: the word of a core halted for another cause than ILLEGAL. -/
theorem State.StatusOk.status_of_halted {s : State} (h : s.StatusOk) (hr : s.runState = .halted) {c : HaltCause}
    (hc : s.haltCause = c) (hne : c ≠ .illegal) :
    s.status = 0#8 ++ 0#8 ++ 0#4 ++ FaultCause.none.code ++ 0#3 ++ c.code ++ RunState.halted.code :=
  State.status_eq (h.illegalByte_eq_zero hc hne) (h.faultCause_eq_none (by rw [hr]; decide)) hc hr

/-- R29, R241: the word of a faulted core. -/
theorem State.StatusOk.status_of_faulted {s : State} (h : s.StatusOk) (hr : s.runState = .faulted) {c : FaultCause}
    (hc : s.faultCause = c) :
    s.status = 0#8 ++ 0#8 ++ 0#4 ++ c.code ++ 0#3 ++ HaltCause.hlt.code ++ RunState.faulted.code := by
  obtain ⟨hhalt, -⟩ := h.not_halted (by rw [hr]; decide)
  exact State.status_eq (h.illegalByte_eq_zero hhalt (by decide)) hc hhalt hr

/-- Settles O55: the invariant fixes the fields that the run state and the cause leave open. -/
theorem statusWordValues : Obligations.StatusWordValues := by
  intro s hinv
  have h := hinv.status
  refine ⟨fun hr => h.status_of_live hr (by decide) (by decide), fun hr => h.status_of_live hr (by decide) (by decide),
    fun hr => h.status_of_live hr (by decide) (by decide), fun hr => ?halted, fun hr => ?faulted⟩
  case halted =>
    refine ⟨fun hc => h.status_of_halted hr hc (by decide), fun hc => h.status_of_halted hr hc (by decide),
      fun hc => h.status_of_halted hr hc (by decide), fun hc => ?_⟩
    rw [← status_word_illegal]
    exact State.status_eq rfl (h.faultCause_eq_none (by rw [hr]; decide)) hc hr
  case faulted =>
    have hword := fun c hc => h.status_of_faulted hr (c := c) hc
    exact ⟨hword _, hword _, hword _, hword _, hword _, hword _, hword _, hword _, hword _, hword _, hword _⟩

end Sys2Proof.Machine
end

section
/-! PROOFS. What the end of an instruction leaves of the state before it: the effects of R118, R143 and R250 change
registers, `rem` and the trace, and then the core waits or the instruction ends. -/

namespace Sys2Proof.Machine

/-- Only the data of the machine has changed: registers, lock flags, `rem`, stack, labels and the trace. -/
def State.SameControl (s u : State) : Prop :=
  u = { s with regs := u.regs, locks := u.locks, rem := u.rem, stack := u.stack, labels := u.labels, events := u.events }

theorem State.SameControl.refl (s : State) : s.SameControl s := rfl

theorem State.SameControl.trans {s u v : State} (h : s.SameControl u) (h' : u.SameControl v) : s.SameControl v := by
  rw [State.SameControl, h', h]

/-- How a rest ends: with `Advance()` or with `UnresolvedGoto()`. -/
def Rest.ending : Rest → State → State
  | .advance => State.advance
  | .unresolvedGoto => State.unresolvedGoto
  | .setRem _ r | .write _ _ r => r.ending

/-- What the effects of a rest lead to: a wait in the same slot, or the end of the instruction. -/
inductive EndsAs (s : State) (r : Rest) : State → Prop
  | waits {u : State} (q : Rest) (hu : s.SameControl u) (hready : s.evReady = false) : EndsAs s r (u.stallWith q)
  | ends {u : State} (hu : s.SameControl u) : EndsAs s r (r.ending u)

/-- Effects after a change of data only are effects of the state before it. -/
theorem EndsAs.of_sameControl {s u t : State} {r r' : Rest} (h : EndsAs u r t) (hu : s.SameControl u)
    (hr : r'.ending = r.ending) : EndsAs s r' t := by
  cases h with
  | waits q hv hready => exact .waits q (hu.trans hv) (by rw [← hready, hu])
  | ends hv => exact hr ▸ .ends (hu.trans hv)

theorem State.finish_endsAs (r : Rest) (s : State) : EndsAs s r (State.finish r s) := by
  induction r generalizing s with
  | advance => exact .ends (.refl s)
  | unresolvedGoto => exact .ends (.refl s)
  | setRem v r ih => exact (ih (s.setRem v)).of_sameControl rfl rfl
  | write k v r ih =>
    rcases s.finish_write_cases k v r with ⟨-, e⟩ | ⟨-, e⟩ <;> rw [e]
    · exact (ih (s.setX k v)).of_sameControl rfl rfl
    · rcases s.emitThen_cases (s.softEvent .lockedWrite (BitVec.ofNat 32 k.val)) r with ⟨-, e⟩ | ⟨hready, e⟩ <;> rw [e]
      · exact (ih (s.record _)).of_sameControl rfl rfl
      · exact .waits r rfl hready

theorem State.emitThen_endsAs (s : State) (e : Event) (r : Rest) : EndsAs s r (s.emitThen e r) := by
  rcases s.emitThen_cases e r with ⟨-, h⟩ | ⟨hready, h⟩ <;> rw [h]
  · exact (State.finish_endsAs r (s.record e)).of_sameControl rfl rfl
  · exact .waits r rfl hready

theorem State.put_endsAs (s : State) (k : Reg) (v : Word) : EndsAs s .advance (s.put k v) :=
  (State.finish_endsAs (.write k v .advance) s).of_sameControl (.refl s) rfl

/-- The course an instruction takes through the control state. -/
inductive Course (s : State) (i : Instr) : State → Prop
  | fault {c} (hc : c ≠ .none) : Course s i (s.raise c)
  | waits {u : State} (q : Rest) (hu : s.SameControl u) (hready : s.evReady = false) : Course s i (u.stallWith q)
  | advances {u : State} (hu : s.SameControl u) (hjmp : ∀ p, i ≠ .jmp p) (hrjmp : ∀ p, i ≠ .rjmp p)
      (hgoto : ∀ k, i ≠ .goto k) : Course s i u.advance
  | branches (l : Word) (hi : (∃ p, i = .jmp p) ∨ (∃ p, i = .rjmp p) ∨ (∃ p q, i = .jeq p q) ∨ (∃ p q, i = .jneq p q) ∨
      ∃ k, i = .goto k) : Course s i { s with line := l, pc := 0 }
  | retries {k} (hi : i = .goto k) (hm : s.config.unresolvedGoto = .retry) (hready : s.evReady = true) :
      Course s i { s.record (s.softEvent .unresolvedLabel (k.setWidth 32)) with pc := linePc s.line }
  | fallsThrough {k} (hi : i = .goto k) (hm : s.config.unresolvedGoto = .fallThrough) (hready : s.evReady = true) :
      Course s i (s.record (s.softEvent .unresolvedLabel (k.setWidth 32))).advance
  | gotoFaults {k} (hi : i = .goto k) (hm : s.config.unresolvedGoto = .fault) (hready : s.evReady = true) :
      Course s i ((s.record (s.softEvent .unresolvedLabel (k.setWidth 32))).raise .gotoUnresolved)
  | exits (w : Word) (hi : ∃ p q r, i = .vmcall p q r) : Course s i (s.halt .exit w)
  | halts (hi : i = .hlt) : Course s i (s.halt .hlt 0)
  | illegal {op : Byte} (hi : i = .igl op) : Course s i ({ s with illegalByte := op }.halt .illegal 4)
  | suspends (hi : i = .brk) : Course s i { s with runState := .suspended }

/-- Effects that end with `Advance()`, in an instruction that does not branch. -/
theorem EndsAs.course {s u t : State} {r : Rest} {i : Instr} (h : EndsAs u r t) (hu : s.SameControl u)
    (hr : r.ending = State.advance) (hjmp : ∀ p, i ≠ .jmp p) (hrjmp : ∀ p, i ≠ .rjmp p) (hgoto : ∀ k, i ≠ .goto k) :
    Course s i t := by
  cases h with
  | waits q hv hready => exact .waits q (hu.trans hv) (by rw [← hready, hu])
  | ends hv => exact hr ▸ .advances (hu.trans hv) hjmp hrjmp hgoto

/-- An instruction that may write a register does not branch. -/
theorem State.MayWriteReg.not_branch {s : State} {i : Instr} {k : Reg} (h : s.MayWriteReg i k) :
    (∀ p, i ≠ .jmp p) ∧ (∀ p, i ≠ .rjmp p) ∧ ∀ k, i ≠ .goto k := by
  refine ⟨?_, ?_, ?_⟩ <;> rintro p rfl <;> exact h

theorem Shape.course {s t : State} {i : Instr} (h : Shape s i t) : Course s i t := by
  cases h with
  | fault hc => exact .fault hc
  | write v hk _ =>
    obtain ⟨h1, h2, h3⟩ := hk.not_branch
    exact (s.put_endsAs _ v).course (.refl s) rfl h1 h2 h3
  | writeRem v w hk _ =>
    obtain ⟨h1, h2, h3⟩ := hk.not_branch
    exact (State.finish_endsAs _ s).course (.refl s) rfl h1 h2 h3
  | boolDomain hi =>
    refine (s.emitThen_endsAs _ .advance).course (.refl s) rfl ?_ ?_ ?_ <;> rintro p rfl <;> simp at hi
  | swap _ _ => exact (State.finish_endsAs _ s).course (.refl s) rfl nofun nofun nofun
  | lock _ => exact .advances rfl nofun nofun nofun
  | stack st v hk _ _ =>
    obtain ⟨h1, h2, h3⟩ := hk.not_branch
    exact ((s.setStack st).put_endsAs _ v).course rfl rfl h1 h2 h3
  | branch v h0 h1 hi => exact .branches _ hi
  | advance hi => refine .advances (.refl s) ?_ ?_ ?_ <;> rintro p rfl <;> simp at hi
  | bind _ => exact .advances rfl nofun nofun nofun
  | unresolved hk =>
    rcases s.emitThen_cases (s.softEvent .unresolvedLabel _) .unresolvedGoto with ⟨hready, e⟩ | ⟨hready, e⟩ <;> rw [e]
    · rcases State.unresolvedGoto_cases (s.record (s.softEvent .unresolvedLabel _)) with
        ⟨hm, e⟩ | ⟨hm, e⟩ | ⟨hm, e⟩ <;> rw [State.finish, e]
      · exact .retries rfl hm hready
      · exact .fallsThrough rfl hm hready
      · exact .gotoFaults rfl hm hready
    · exact .waits _ rfl hready
  | print a v => exact (s.emitThen_endsAs _ .advance).course (.refl s) rfl nofun nofun nofun
  | exit w => exact .exits w ⟨_, _, _, rfl⟩
  | suspend => exact .suspends rfl
  | hlt => exact .halts rfl
  | igl => exact .illegal rfl

end Sys2Proof.Machine
end

section
/-! PROOFS. Every instruction, by its course: the slot it ends in (spec/40_execution.md R119, R125), its fault (R121), the
status records (spec/10_state.md R29 to R31). -/

namespace Sys2Proof.Machine

open Sys2Proof.Claims

section

variable {s u : State} (h : s.SameControl u)
include h

theorem State.SameControl.line_eq : u.line = s.line := by rw [h]
theorem State.SameControl.pc_eq : u.pc = s.pc := by rw [h]
theorem State.SameControl.runState_eq : u.runState = s.runState := by rw [h]
theorem State.SameControl.haltCause_eq : u.haltCause = s.haltCause := by rw [h]
theorem State.SameControl.exitCode_eq : u.exitCode = s.exitCode := by rw [h]
theorem State.SameControl.illegalByte_eq : u.illegalByte = s.illegalByte := by rw [h]
theorem State.SameControl.faultCause_eq : u.faultCause = s.faultCause := by rw [h]
theorem State.SameControl.faultLine_eq : u.faultLine = s.faultLine := by rw [h]
theorem State.SameControl.faultOffset_eq : u.faultOffset = s.faultOffset := by rw [h]
theorem State.SameControl.prog_eq : u.prog = s.prog := by rw [h]
theorem State.SameControl.progLen_eq : u.progLen = s.progLen := by rw [h]
theorem State.SameControl.config_eq : u.config = s.config := by rw [h]
theorem State.SameControl.inbox_eq : u.inbox = s.inbox := by rw [h]
theorem State.SameControl.evReady_eq : u.evReady = s.evReady := by rw [h]
theorem State.SameControl.stalled_eq : u.stalled = s.stalled := by rw [h]

end

variable {s t : State} {i : Instr}

/-- R60, R61, R7: no instruction touches program memory, the parameters or the host's lines. -/
theorem Course.environment (h : Course s i t) :
    t.prog = s.prog ∧ t.progLen = s.progLen ∧ t.config = s.config ∧ t.inbox = s.inbox ∧ t.evReady = s.evReady := by
  cases h with
  | waits q hu _ => exact ⟨hu.prog_eq, hu.progLen_eq, hu.config_eq, hu.inbox_eq, hu.evReady_eq⟩
  | advances hu _ _ _ => exact ⟨hu.prog_eq, hu.progLen_eq, hu.config_eq, hu.inbox_eq, hu.evReady_eq⟩
  | _ => exact ⟨rfl, rfl, rfl, rfl, rfl⟩

/-- R29, R30: the halt record changes only into HALTED. -/
theorem Course.haltRecord (h : Course s i t) (ht : t.runState ≠ .halted) :
    t.haltCause = s.haltCause ∧ t.exitCode = s.exitCode := by
  cases h with
  | waits q hu _ => exact ⟨hu.haltCause_eq, hu.exitCode_eq⟩
  | advances hu _ _ _ => exact ⟨hu.haltCause_eq, hu.exitCode_eq⟩
  | exits | halts | illegal => exact absurd rfl ht
  | _ => exact ⟨rfl, rfl⟩

/-- R29: the illegal byte changes only by IGL. -/
theorem Course.illegalByte (h : Course s i t) (hi : ∀ op, i ≠ .igl op) : t.illegalByte = s.illegalByte := by
  cases h with
  | waits q hu _ => exact hu.illegalByte_eq
  | advances hu _ _ _ => exact hu.illegalByte_eq
  | illegal h => exact absurd h (hi _)
  | _ => rfl

/-- R29, R31: the fault record changes only into FAULTED. -/
theorem Course.faultRecord (h : Course s i t) (ht : t.runState ≠ .faulted) :
    t.faultCause = s.faultCause ∧ t.faultLine = s.faultLine ∧ t.faultOffset = s.faultOffset := by
  cases h with
  | waits q hu _ => exact ⟨hu.faultCause_eq, hu.faultLine_eq, hu.faultOffset_eq⟩
  | advances hu _ _ _ => exact ⟨hu.faultCause_eq, hu.faultLine_eq, hu.faultOffset_eq⟩
  | fault | gotoFaults => exact absurd rfl ht
  | _ => exact ⟨rfl, rfl, rfl⟩

/-- Settles O46: by the course of the instruction. -/
theorem memoryAndStatusFrame : Obligations.MemoryAndStatusFrame := by
  intro i s t h
  have hc := (exec_shape h).course
  obtain ⟨hprog, hlen, hconfig, hinbox, hready⟩ := hc.environment
  exact ⟨fun a => congrArg (Memory.read · a) hprog, hlen, hconfig, hinbox, hready, hc.haltRecord, hc.illegalByte,
    hc.faultRecord⟩

/-- R28: the run states an instruction can lead to. -/
theorem Course.runState (h : Course s i t) : t.runState = s.runState ∨ (t.runState = .suspended ∧ i = .brk) ∨
    t.runState = .halted ∨ t.runState = .faulted := by
  cases h with
  | waits q hu _ => exact .inl hu.runState_eq
  | advances hu _ _ _ => exact .inl hu.runState_eq
  | branches | retries | fallsThrough => exact .inl rfl
  | exits | halts | illegal => exact .inr (.inr (.inl rfl))
  | fault | gotoFaults => exact .inr (.inr (.inr rfl))
  | suspends hi => exact .inr (.inl ⟨rfl, hi⟩)

/-- R122, R242: the event of an unresolved GOTO, in the statements' words. -/
theorem State.softEvent_unresolvedLabel (s : State) (k : Byte) :
    s.softEvent .unresolvedLabel (k.setWidth 32) = Claims.softEvent s 3 (BitVec.ofNat 32 k.toNat) := by
  rw [State.softEvent_eq, show k.setWidth 32 = BitVec.ofNat 32 k.toNat from BitVec.eq_of_toNat_eq (by simp)]
  rfl

/-- Settles O19: on every other course the run state is the old one or not FAULTED. -/
theorem faultsArePrecise : Obligations.FaultsArePrecise := by
  intro i s t h hs ht
  cases (exec_shape h).course with
  | fault hc => exact .inl ⟨_, hc, rfl⟩
  | waits q hu _ => exact absurd (hu.runState_eq.symm.trans ht) hs
  | advances hu _ _ _ => exact absurd (hu.runState_eq.symm.trans ht) hs
  | branches | retries | fallsThrough => exact absurd ht hs
  | gotoFaults hi hm hready => exact .inr ⟨_, hi, hm, hready, by rw [State.softEvent_unresolvedLabel]; rfl⟩
  | exits | halts | illegal | suspends => exact nomatch ht

/-- R119, R125: an instruction that ends RUNNING and does not wait is at the next slot, or has branched. -/
theorem Course.nextSlot_or_branch (h : Course s i t) (hst : t.stalled = none)
    (ht : t.runState = .running) (hgoto : ∀ k, i ≠ .goto k) :
    (((∀ p, i ≠ .jmp p) ∧ ∀ p, i ≠ .rjmp p) ∧ t.line = s.line + 1 ∧ t.pc = t.line * 4) ∨
    (((∃ p, i = .jmp p) ∨ (∃ p, i = .rjmp p) ∨ (∃ p q, i = .jeq p q) ∨ ∃ p q, i = .jneq p q) ∧ t.pc = 0) := by
  cases h with
  | waits => exact nomatch hst
  | advances hu hjmp hrjmp _ =>
    refine .inl ⟨⟨hjmp, hrjmp⟩, congrArg (· + 1) hu.line_eq, ?_⟩
    rw [State.advance_pc, linePc_eq, State.advance_line]
  | branches l hi =>
    rcases hi with hi | hi | hi | hi | ⟨k, hk⟩
    · exact .inr ⟨.inl hi, rfl⟩
    · exact .inr ⟨.inr (.inl hi), rfl⟩
    · exact .inr ⟨.inr (.inr (.inl hi)), rfl⟩
    · exact .inr ⟨.inr (.inr (.inr hi)), rfl⟩
    · exact absurd hk (hgoto k)
  | retries hi | fallsThrough hi => exact absurd hi (hgoto _)
  | fault | gotoFaults | exits | halts | illegal | suspends => exact nomatch ht

/-- R250: an instruction that waits is still in its slot. -/
theorem Course.slot_of_waiting (h : Course s i t) (hs : s.stalled = none) (ht : t.stalled ≠ none) :
    t.line = s.line ∧ t.pc = s.pc := by
  cases h with
  | waits q hu _ => exact ⟨hu.line_eq, hu.pc_eq⟩
  | advances hu _ _ _ => exact absurd (hu.stalled_eq.trans hs) ht
  | _ => exact absurd hs ht

/-- R205: where a GOTO of a bound id ends RUNNING, it has branched to its line. -/
theorem exec_goto_bound_slot {k : Byte} (h : exec (.goto k) s = .next t) (hv : (s.labelAt k).valid = true)
    (ht : t.runState = .running) : t.line = (s.labelAt k).loc ∧ t.pc = 0 := by
  rw [exec_goto_of_bound hv] at h
  obtain rfl := next_inj h
  rcases s.branchTo_cases (s.labelAt k).loc.toNat with ⟨-, e⟩ | ⟨-, hle, e⟩
  · rw [e] at ht; exact nomatch ht
  · rw [State.branchTo_line (by exact_mod_cast hle)]
    exact ⟨rfl, rfl⟩

/-- R206: where a GOTO of an unbound id has run to its end and is RUNNING, it is at its own slot or at the next. -/
theorem exec_goto_unbound_slot {k : Byte} (h : exec (.goto k) s = .next t) (hv : (s.labelAt k).valid = false)
    (hst : t.stalled = none) (ht : t.runState = .running) :
    (t.line = s.line ∨ t.line = s.line + 1) ∧ t.pc = t.line * 4 := by
  rw [exec_goto_of_unbound hv] at h
  obtain rfl := next_inj h
  unfold afterEvent at hst ht ⊢
  split at hst
  case isFalse => exact nomatch hst
  case isTrue hready =>
    rw [if_pos hready] at ht ⊢
    unfold afterUnresolved at ht ⊢
    split at ht
    · exact ⟨.inl rfl, rfl⟩
    · exact ⟨.inr rfl, rfl⟩
    · exact nomatch ht

/-- Settles O20: GOTO by whether its id is bound, every other instruction by its course. -/
theorem slotInvariant : Obligations.SlotInvariant := by
  intro i s t h hs hs' ht
  have hc := (exec_shape h).course
  refine ⟨hc.slot_of_waiting hs', fun hst => ?_⟩
  by_cases hgoto : ∃ k, i = .goto k
  · obtain ⟨k, rfl⟩ := hgoto
    exact ⟨fun hv => exec_goto_bound_slot h hv ht, fun hv => exec_goto_unbound_slot h hv hst ht⟩
  · rcases hc.nextSlot_or_branch hst ht fun k hk => hgoto ⟨k, hk⟩ with ⟨⟨hjmp, hrjmp⟩, hnext⟩ | ⟨hi, hpc⟩
    · cases i with
      | goto k => exact absurd ⟨k, rfl⟩ hgoto
      | jmp p => exact absurd rfl (hjmp p)
      | rjmp p => exact absurd rfl (hrjmp p)
      | jeq p q | jneq p q => exact .inr hnext
      | _ => exact hnext
    · obtain ⟨p, rfl⟩ | ⟨p, rfl⟩ | ⟨p, q, rfl⟩ | ⟨p, q, rfl⟩ := hi
      · exact hpc
      · exact hpc
      · exact .inl hpc
      · exact .inl hpc

end Sys2Proof.Machine
end

section
/-! PROOFS. What an instruction leaves of registers, lock flags, `rem`, stack and labels (spec/10_state.md R20 to R26). -/

namespace Sys2Proof.Machine

open Sys2Proof.Claims

/-- The rest writes `rem` (R143, R181). -/
def Rest.SetsRem : Rest → Prop
  | .advance | .unresolvedGoto => False
  | .setRem _ _ => True
  | .write _ _ r => r.SetsRem

theorem State.unresolvedGoto_rem (s : State) : s.unresolvedGoto.rem = s.rem := by
  rcases s.unresolvedGoto_cases with ⟨_, e⟩ | ⟨_, e⟩ | ⟨_, e⟩ <;> rw [e] <;> rfl

/-- R23: effects that do not write `rem` leave it. -/
theorem State.finish_rem {r : Rest} (h : ¬ r.SetsRem) (s : State) : (State.finish r s).rem = s.rem := by
  induction r generalizing s with
  | advance => rfl
  | unresolvedGoto => exact s.unresolvedGoto_rem
  | setRem v r ih => exact absurd trivial h
  | write k v r ih =>
    rcases s.finish_write_cases k v r with ⟨-, e⟩ | ⟨-, e⟩ <;> rw [e]
    · exact ih h (s.setX k v)
    · rcases s.emitThen_cases (s.softEvent .lockedWrite (BitVec.ofNat 32 k.val)) r with ⟨-, e⟩ | ⟨-, e⟩ <;> rw [e]
      · exact ih h (s.record _)
      · rfl

theorem State.emitThen_rem {r : Rest} (h : ¬ r.SetsRem) (s : State) (e : Event) : (s.emitThen e r).rem = s.rem := by
  rcases s.emitThen_cases e r with ⟨-, h'⟩ | ⟨-, h'⟩ <;> rw [h']
  · exact State.finish_rem h (s.record e)
  · rfl

variable {s t : State} {i : Instr}

/-- R20, R22: a register the instruction may not write, or a locked one, keeps its content. -/
theorem Shape.x_eq (h : Shape s i t) {r : Reg} (hr : ¬ s.MayWriteReg i r ∨ s.locked r = true) : t.x r = s.x r := by
  have hsingle : ∀ {k : Reg}, s.MayWriteReg i k → r ∉ [k] ∨ s.locked r = true := fun hk =>
    hr.imp (fun hn hmem => hn (List.mem_singleton.mp hmem ▸ hk)) id
  cases h with
  | write v hk _ => exact State.finish_x _ s r (hsingle hk)
  | writeRem v w hk _ => exact State.finish_x _ s r (hsingle hk)
  | stack st v hk _ _ => exact State.finish_x _ (s.setStack st) r (hsingle hk)
  | swap ha hb =>
    refine State.finish_x _ s r (hr.imp (fun hn hmem => hn ?_) id)
    rcases List.mem_cons.mp hmem with rfl | hmem
    · exact .inl ha
    · exact .inr (List.mem_singleton.mp hmem ▸ hb)
  | boolDomain | unresolved | print => exact s.emitThen_x _ _ r (.inl nofun)
  | fault | lock | branch | advance | bind | exit | suspend | hlt | igl => rfl

/-- R22, R33: LOCKR alone changes lock flags. -/
theorem Shape.locks_eq (h : Shape s i t) (hi : ∀ p, i ≠ .lockr p) : t.locks = s.locks := by
  cases h with
  | lock => exact absurd rfl (hi _)
  | _ => simp

/-- R23: DIV and GET alone change `rem`. -/
theorem Shape.rem_eq (h : Shape s i t) (hdiv : ∀ p q d, i ≠ .div p q d) (hget : ∀ k p, i ≠ .get k p) : t.rem = s.rem := by
  cases h with
  | write v => exact State.finish_rem (r := .write _ v .advance) id s
  | writeRem v w hk hi =>
    rcases hi with ⟨p, q, d, hi⟩ | ⟨-, k, p, hi⟩
    · exact absurd hi (hdiv p q d)
    · exact absurd hi (hget k p)
  | swap => exact State.finish_rem (r := .write _ _ (.write _ _ .advance)) id s
  | stack st v => exact State.finish_rem (r := .write _ v .advance) id (s.setStack st)
  | boolDomain | unresolved | print => exact State.emitThen_rem id s _
  | fault | lock | branch | advance | bind | exit | suspend | hlt | igl => rfl

/-- R24: PUSHRTS and POPRFS alone change the stack. -/
theorem Shape.stack_eq (h : Shape s i t) (hpush : ∀ p, i ≠ .pushrts p) (hpop : ∀ p, i ≠ .poprfs p) : t.stack = s.stack := by
  cases h with
  | stack st v hk hi hl =>
    rcases hi with ⟨p, hi⟩ | ⟨p, hi⟩
    · exact absurd hi (hpush p)
    · exact absurd hi (hpop p)
  | _ => simp

/-- R25: LABEL alone changes the label table. -/
theorem Shape.labels_eq (h : Shape s i t) (hi : ∀ k, i ≠ .label k) : t.labels = s.labels := by
  cases h with
  | bind => exact absurd rfl (hi _)
  | _ => simp

/-- Settles O45: the frame of each part of the state, by what the instruction can do. -/
theorem instructionFrame : Obligations.InstructionFrame := by
  intro i s t h
  have hsh := exec_shape h
  exact ⟨fun r hr => hsh.x_eq (.inl hr), hsh.locks_eq, hsh.rem_eq, hsh.stack_eq, hsh.labels_eq⟩

/-- R204: what LABEL leaves in the table, entry by entry. -/
theorem exec_label_labelAt {k : Byte} (h : exec (.label k) s = .next t) (k' : Byte) :
    t.labelAt k' = if k' = k ∧ (s.labelAt k).valid = false then { valid := true, loc := s.line } else s.labelAt k' := by
  obtain ⟨u, hu, hk, hother, -⟩ := labelBindsFirst k s
  obtain rfl := next_inj (h.symm.trans hu)
  by_cases hkk : k' = k
  · rw [hkk, hk]
    cases (s.labelAt k).valid <;> simp
  · rw [hother k' hkk, if_neg fun hc => hkk hc.1]

/-- R26: an instruction leaves a bound entry as it is. -/
theorem exec_labelAt_of_valid (h : exec i s = .next t) {k : Byte} (hk : (s.labelAt k).valid = true) :
    t.labelAt k = s.labelAt k := by
  by_cases hi : ∃ k', i = .label k'
  · obtain ⟨k', rfl⟩ := hi
    rw [exec_label_labelAt h, if_neg]
    rintro ⟨rfl, hv⟩
    exact nomatch hk.symm.trans hv
  · unfold State.labelAt
    rw [(exec_shape h).labels_eq fun k' hk' => hi ⟨k', hk'⟩]

/-- R26: the source's search of a longer sequence. -/
theorem firstMatch_append (es fs : List (Byte × Word)) (k : Byte) :
    firstMatch (es ++ fs) k = (firstMatch es k).or (firstMatch fs k) := by
  rw [firstMatch, List.find?_append, Option.map_or]
  rfl

theorem firstMatch_singleton (e : Byte × Word) (k : Byte) : firstMatch [e] k = if e.1 = k then some e.2 else none := by
  rw [firstMatch, List.find?_singleton]
  by_cases h : e.1 = k <;> simp [h]

/-- R204, R205: what GOTO finds after a LABEL. -/
theorem boundLine_exec_label {k : Byte} (h : exec (.label k) s = .next t) (k' : Byte) :
    boundLine t k' = (boundLine s k').or (if k = k' then some s.line else none) := by
  unfold boundLine
  rw [exec_label_labelAt h]
  by_cases hkk : k = k'
  · subst hkk
    cases hv : (s.labelAt k).valid <;> simp [hv]
  · simp [hkk, Ne.symm hkk]

/-- An instruction other than LABEL appends no entry. -/
theorem appended_eq_nil (hi : ∀ k, i ≠ .label k) (l : Word) : appended i l = [] := by
  cases i with
  | label k => exact absurd rfl (hi k)
  | _ => rfl

/-- Settles O22: only LABEL changes the table, and it appends the entry that the first match then finds. -/
theorem labelTableRefinesSequence : Obligations.LabelTableRefinesSequence := by
  refine ⟨fun k => ?_, fun i s t es h hes k => ?_⟩
  · rw [boundLine, State.reset_labelAt, firstMatch_singleton]
    by_cases hk : k = 0
    · rw [hk]; rfl
    · rw [if_neg hk, if_neg (Ne.symm hk)]; rfl
  · by_cases hi : ∃ k', i = .label k'
    · obtain ⟨k', rfl⟩ := hi
      rw [boundLine_exec_label h, hes, firstMatch_append, appended, firstMatch_singleton]
    · have hi' : ∀ k', i ≠ .label k' := fun k' hk' => hi ⟨k', hk'⟩
      have ht : boundLine t k = boundLine s k := by
        rw [boundLine, boundLine, State.labelAt, State.labelAt, (exec_shape h).labels_eq hi']
      rw [ht, hes, appended_eq_nil hi', List.append_nil]

end Sys2Proof.Machine
end

section
/-! PROOFS. Every step (spec/40_execution.md R110, spec/10_state.md R28, R38): what it can do, said once as one list. -/

namespace Sys2Proof.Machine

open Sys2Proof.Claims

/-- The state whose next transaction has been taken off the schedule. -/
def State.afterTake (s : State) : State := { s with inbox := s.inbox.tail }

/-- R110: the state an instruction starts from. -/
def State.atOperands (s : State) (i : Instr) : State :=
  { s with pc := BitVec.ofNat 32 (s.fetchAddress + 1 + i.operandCount) }

/-- The states a step can lead to from `s`: by a transaction of the host, by an acceptance, or by the core. -/
inductive StepShape (s : State) : State → Prop
  | same : StepShape s s.afterTake
  | reset (ha : s.inbox.head? = some .reset) : StepShape s s.afterTake.hostReset
  | load (bytes : List Byte) (hidle : s.runState = .idle) (hlen : bytes.length ≤ maxProgLen) :
      StepShape s { s.afterTake with prog := Memory.ofBytes 0 bytes, progLen := bytes.length }
  | preload (k v l) (ha : s.inbox.head? = some (.preload k v l)) (hidle : s.runState = .idle) :
      StepShape s { s.afterTake with regs := s.regs.set k v k.isLt, locks := s.locks.set k l k.isLt }
  | start (ha : s.inbox.head? = some .start) (hidle : s.runState = .idle) :
      StepShape s { s.afterTake with runState := .running }
  | resume (ha : s.inbox.head? = some .resume) (hsusp : s.runState = .suspended) :
      StepShape s { s.afterTake.advance with runState := .running }
  | setReady (level) : StepShape s (s.afterTake.hostSetReady level)
  | continues (r) (hrun : s.runState = .running) (hst : s.stalled = some r) :
      StepShape s (State.finish r { s.afterTake with stalled := none })
  | ended (hrun : s.runState = .running) (hst : s.stalled = none) : StepShape s (s.afterTake.halt .ended 0)
  | overrun (a : Word) (hrun : s.runState = .running) (hst : s.stalled = none) :
      StepShape s (({ s.afterTake with pc := a } : State).raise .programOverrun)
  | instr {i t} (hrun : s.runState = .running) (hst : s.stalled = none) (hf : s.fetch = .ok i)
      (hexec : exec i (s.afterTake.atOperands i) = .next t) : StepShape s t

variable {s t : State}

theorem hostStep_shape {a : HostAction} (ha : s.inbox.head? = some a) (hpass : a ≠ .pass)
    (h : hostStep a s.afterTake = .next t) : StepShape s t := by
  cases a with
  | pass => exact absurd rfl hpass
  | reset => obtain rfl := next_inj h; exact .reset ha
  | load bytes =>
    rcases State.hostLoad_cases h with ⟨hidle, hlen, rfl⟩ | ⟨-, rfl⟩
    · exact .load bytes hidle hlen
    · exact .same
  | preload k v l =>
    obtain rfl := next_inj h
    rcases s.afterTake.hostPreload_cases k v l with ⟨hidle, e⟩ | ⟨-, e⟩ <;> rw [e]
    · exact .preload k v l ha hidle
    · exact .same
  | start =>
    obtain rfl := next_inj h
    rcases s.afterTake.hostStart_cases with ⟨hidle, e⟩ | ⟨-, e⟩ <;> rw [e]
    · exact .start ha hidle
    · exact .same
  | resume =>
    obtain rfl := next_inj h
    rcases s.afterTake.hostResume_cases with ⟨hsusp, e⟩ | ⟨-, e⟩ <;> rw [e]
    · exact .resume ha hsusp
    · exact .same
  | setReady level => obtain rfl := next_inj h; exact .setReady level
  | accept =>
    obtain rfl := next_inj h
    rcases s.afterTake.hostAccept_cases with ⟨r, hrun, hst, e⟩ | ⟨-, e⟩ <;> rw [e]
    · exact .continues r hrun hst
    · exact .same

theorem coreStep_shape (h : coreStep s.afterTake = .next t) : StepShape s t := by
  rcases coreStep_cases h with ⟨hrun, hst, hstep⟩ | ⟨r, hrun, hst, -, rfl⟩ | ⟨-, -, -, rfl⟩ | ⟨-, rfl⟩
  · rcases runStep_cases hstep with ⟨-, rfl⟩ | ⟨-, a, -, rfl⟩ | ⟨-, i, hf, hexec⟩
    · exact .ended hrun hst
    · exact .overrun _ hrun hst
    · exact .instr hrun hst hf hexec
  · exact .continues r hrun hst
  · exact .same
  · exact .same

/-- The inversion lemma of `step`. -/
theorem step_shape (h : step s = .next t) : StepShape s t := by
  rcases step_cases h with ⟨a, ha, hpass, h⟩ | ⟨-, h⟩
  · exact hostStep_shape ha hpass h
  · exact coreStep_shape h

/-- R39, R61, R7: no instruction and no rest of one touches program memory or the parameters. -/
theorem StepShape.program (h : StepShape s t) : t.config = s.config ∧
    (s.inbox.head? ≠ some .reset → s.runState ≠ .idle → t.prog = s.prog ∧ t.progLen = s.progLen) := by
  cases h with
  | instr hrun hst hf hexec =>
    obtain ⟨hprog, hlen, hconfig, -, -⟩ := (exec_shape hexec).course.environment
    exact ⟨hconfig, fun _ _ => ⟨hprog, hlen⟩⟩
  | continues r => exact ⟨State.finish_config _ r, fun _ _ => ⟨State.finish_prog _ r, State.finish_progLen _ r⟩⟩
  | reset ha => exact ⟨rfl, fun hne => absurd ha hne⟩
  | load _ hidle => exact ⟨rfl, fun _ hne => absurd hidle hne⟩
  | same | preload | start | resume | setReady | ended | overrun => exact ⟨rfl, fun _ _ => ⟨rfl, rfl⟩⟩

/-- Settles O16: by what a step can do. -/
theorem programIsConstantDuringRun : Obligations.ProgramIsConstantDuringRun := fun _ _ h => (step_shape h).program

/-- Settles O14: by what a step can do; the rest of an instruction only faults. -/
theorem runStateTransitions : Obligations.RunStateTransitions := by
  intro s t h hne
  cases step_shape h with
  | reset ha => exact .inl ⟨ha, rfl⟩
  | start ha hidle => exact .inr (.inl ⟨ha, hidle, rfl⟩)
  | resume ha hsusp => exact .inr (.inr (.inl ⟨ha, hsusp, rfl⟩))
  | continues r hrun hst =>
    rcases State.finish_runState r { s.afterTake with stalled := none } with hsame | hfault
    · exact absurd hsame hne
    · exact .inr (.inr (.inr (.inr (.inr ⟨hrun, hfault⟩))))
  | ended hrun hst => exact .inr (.inr (.inr (.inr (.inl ⟨hrun, rfl⟩))))
  | overrun a hrun hst => exact .inr (.inr (.inr (.inr (.inr ⟨hrun, rfl⟩))))
  | instr hrun hst hf hexec =>
    rcases (exec_shape hexec).course.runState with hsame | ⟨hsusp, rfl⟩ | hhalt | hfault
    · exact absurd hsame hne
    · exact .inr (.inr (.inr (.inl ⟨hrun, hsusp, hf⟩)))
    · exact .inr (.inr (.inr (.inr (.inl ⟨hrun, hhalt⟩))))
    · exact .inr (.inr (.inr (.inr (.inr ⟨hrun, hfault⟩))))
  | same | load | preload | setReady => exact absurd rfl hne

/-- Settles O50: reset apart, only an instruction reaches the label table, and it leaves a bound entry. -/
theorem boundLabelsPersist : Obligations.BoundLabelsPersist := by
  intro s t k h hreset hk
  cases step_shape h with
  | reset ha => exact absurd ha hreset
  | continues r => exact State.finish_labelAt _ r k
  | instr hrun hst hf hexec => exact exec_labelAt_of_valid hexec hk
  | same | load | preload | start | resume | setReady | ended | overrun => rfl

/-- R22: what a preload leaves of the other lock flags. -/
theorem get_set_of_ne {α : Type} (v : Vector α 32) {k r : Reg} (a : α) (h : k ≠ r) : (v.set k a k.isLt).get r = v.get r := by
  simp only [Vector.get_eq_getElem, Vector.getElem_set, Fin.val_inj, if_neg h]

/-- R22: a lock flag that a step changes. -/
theorem StepShape.locked_changed (h : StepShape s t) (hreset : s.inbox.head? ≠ some .reset) {r : Reg}
    (hr : t.locked r ≠ s.locked r) : (s.runState = .idle ∧ ∃ v l, s.inbox.head? = some (.preload r v l)) ∨
      (s.runState = .running ∧ ∃ p, s.fetch = .ok (.lockr p)) := by
  cases h with
  | reset ha => exact absurd ha hreset
  | preload k v l ha hidle =>
    by_cases hkr : k = r
    · exact .inl ⟨hidle, v, l, hkr ▸ ha⟩
    · exact absurd (get_set_of_ne s.locks l hkr) hr
  | continues q => exact absurd (State.finish_locked _ q r) hr
  | @instr i _ hrun hst hf hexec =>
    by_cases hi : ∃ p, i = .lockr p
    · obtain ⟨p, rfl⟩ := hi
      exact .inr ⟨hrun, p, hf⟩
    · have hlocks := (exec_shape hexec).locks_eq fun p hp => hi ⟨p, hp⟩
      exact absurd (congrArg (Vector.get · r) hlocks) hr
  | same | load | start | resume | setReady | ended | overrun => exact absurd rfl hr

/-- R23: the instructions that a rest writing `rem` can be left by. -/
theorem State.MayLeave.rem_instr {i : Instr} {r : Rest} (h : s.MayLeave i r) (hr : r.SetsRem) :
    (∃ p q d, i = .div p q d) ∨ ∃ k p, i = .get k p := by
  cases i with
  | div p q d => exact .inl ⟨p, q, d, rfl⟩
  | get k p => exact .inr ⟨k, p, rfl⟩
  | swp p q =>
    rcases h with rfl | ⟨a, b, -, -, rfl⟩
    · exact hr.elim
    · exact hr.elim
  | goto k => obtain ⟨-, rfl⟩ := h; exact hr.elim
  | hlt | jmp p | rjmp p | jeq p q | jneq p q | lockr p | brk | label k | igl op => exact h.elim
  | load _ _ | add _ _ _ | sub _ _ _ | vmcall _ _ _ | eq _ _ _ | neq _ _ _ | and _ _ _ | or _ _ _ | not _ _ | pushrts _
  | poprfs _ => obtain rfl : r = .advance := h; exact hr.elim

/-- R23: a step that changes `rem`; a core that waits inside an instruction is inside the one of its line. -/
theorem StepShape.rem_changed (h : StepShape s t) (hreset : s.inbox.head? ≠ some .reset) (hinv : s.Inv)
    (hrem : t.rem ≠ s.rem) : s.runState = .running ∧
      ((∃ p q d, s.fetch = .ok (.div p q d)) ∨ ∃ k p, s.fetch = .ok (.get k p)) := by
  cases h with
  | reset ha => exact absurd ha hreset
  | continues r hrun hst =>
    obtain ⟨i, hf, hleave, -⟩ := hinv.stall.inside r hst
    have hsets : r.SetsRem := by
      by_contra hn
      exact hrem (State.finish_rem hn _)
    refine ⟨hrun, ?_⟩
    rcases hleave.rem_instr hsets with ⟨p, q, d, rfl⟩ | ⟨k, p, rfl⟩
    · exact .inl ⟨p, q, d, hf⟩
    · exact .inr ⟨k, p, hf⟩
  | @instr i _ hrun hst hf hexec =>
    refine ⟨hrun, ?_⟩
    by_contra hn
    rw [not_or] at hn
    refine hrem ((exec_shape hexec).rem_eq (fun p q d hi => hn.1 ⟨p, q, d, ?_⟩) fun k p hi => hn.2 ⟨k, p, ?_⟩) <;> rw [hf, hi]
  | same | load | preload | start | resume | setReady | ended | overrun => exact absurd rfl hrem

/-- Settles O49: by what a step can do. -/
theorem locksAndRemChangeOnlySo : Obligations.LocksAndRemChangeOnlySo := fun _ _ h hreset =>
  ⟨fun _ hr => (step_shape h).locked_changed hreset hr, fun hinv hrem => (step_shape h).rem_changed hreset hinv hrem⟩

end Sys2Proof.Machine
end

section
/-! PROOFS. The invariant (spec/10_state.md R24 to R31, spec/60_exceptions.md R250): what holds inside an instruction, and the
invariant at each of its ends. -/

namespace Sys2Proof.Machine

open Sys2Proof.Claims

/-- The part of the invariant that does not speak of the counters, in a core that does not wait. -/
structure State.Sound (s : State) : Prop where
  program : s.ProgramOk
  tables : s.TablesOk
  status : s.StatusOk
  legal : ∀ e ∈ s.events, e.Legal
  clear : s.stalled = none

/-- What holds inside an instruction between two of its effects (R110, R124). -/
structure State.Inside (s : State) (i : Instr) : Prop extends s.Sound where
  running : s.runState = .running
  fetched : s.fetch = .ok i
  pc_eq : s.pc.toNat = s.line.toNat * 4 + 1 + i.operandCount

variable {s u t : State} {i : Instr}

/-! ### Which fields each part depends on -/

theorem State.ProgramOk.of_eq (h : s.ProgramOk) (hprog : u.prog = s.prog) (hlen : u.progLen = s.progLen) : u.ProgramOk :=
  ⟨hprog ▸ h.canonical, by rw [hprog, hlen]; exact h.inside, hlen ▸ h.bounded⟩

/-- The tables do not depend on registers, lock flags, `rem` and the trace. -/
theorem State.TablesOk.of_eq (h : s.TablesOk) (hc : u.config = s.config) (hst : u.stack = s.stack) (hl : u.labels = s.labels) :
    u.TablesOk := by
  have hat : ∀ k, u.labelAt k = s.labelAt k := fun k => congrArg (Vector.get · k.toFin) hl
  exact ⟨hc ▸ h.capacity_pos, by rw [hc, hst]; exact h.depth_le, (hat 0).trans h.sentinel,
    fun k => by rw [hat]; exact h.loc_le k, fun k => by rw [hat]; exact h.invalid_loc k⟩

/-- R28 to R31: the run state and the records. -/
def State.records (s : State) : RunState × HaltCause × FaultCause × Byte × Word × Word × Word :=
  (s.runState, s.haltCause, s.faultCause, s.illegalByte, s.exitCode, s.faultLine, s.faultOffset)

theorem State.StatusOk.of_eq (h : s.StatusOk) (hu : u.records = s.records) : u.StatusOk := by
  simp only [State.records, Prod.mk.injEq] at hu
  obtain ⟨hrun, hhalt, hfault, hbyte, hcode, hline, hoffset⟩ := hu
  constructor <;> simp only [hrun, hhalt, hfault, hbyte, hcode, hline, hoffset]
  · exact h.not_halted
  · exact h.fault_iff
  · exact h.not_faulted
  · exact h.not_illegal
  · exact h.illegal
  · exact h.clean

/-! ### From a sound state -/

/-- What a state that differs from a sound one in counters and status only needs to meet the invariant. -/
theorem State.Sound.inv (h : s.Sound)
    (ht : t = { s with
      line := t.line, pc := t.pc, runState := t.runState, haltCause := t.haltCause, faultCause := t.faultCause
      illegalByte := t.illegalByte, exitCode := t.exitCode, faultLine := t.faultLine, faultOffset := t.faultOffset })
    (hcounters : t.CountersOk) (hstatus : t.StatusOk) : t.Inv := by
  have hclear : t.stalled = none := by rw [ht]; exact h.clear
  refine ⟨?program, hcounters, ?tables, hstatus, ⟨?legal, fun hst => absurd hclear hst⟩,
    ⟨fun hst => absurd hclear hst, fun r hr => nomatch hclear.symm.trans hr⟩⟩
  case program => rw [ht]; exact h.program.of_eq rfl rfl
  case tables => rw [ht]; exact h.tables.of_eq rfl rfl rfl
  case legal => rw [ht]; exact h.legal

/-- R121: the status records after a fault. -/
theorem State.StatusOk.raise (h : s.StatusOk) (hrun : s.runState = .running) {c : FaultCause} (hc : c ≠ .none) :
    (s.raise c).StatusOk where
  not_halted _ := h.not_halted (by rw [hrun]; decide)
  fault_iff := ⟨fun _ => rfl, fun _ => hc⟩
  not_faulted hne := absurd rfl hne
  not_illegal := h.not_illegal
  illegal := h.illegal
  clean := h.clean

/-- R112, R121: a fault keeps the invariant, whatever `pc` it records. -/
theorem State.Sound.inv_raise (h : s.Sound) (hrun : s.runState = .running) (hline : s.line.toNat ≤ maxLine) {c : FaultCause}
    (hc : c ≠ .none) (pc : Word) : (State.raise { s with pc := pc } c).Inv :=
  h.inv rfl ⟨hline, nofun, nofun, nofun⟩ (State.StatusOk.raise (s := { s with pc := pc }) (h.status.of_eq rfl) hrun hc)

/-- R123: a halt with a cause other than ILLEGAL keeps the invariant; HLT and END have exit code 0. -/
theorem State.Sound.inv_halt (h : s.Sound) (hrun : s.runState = .running) (hline : s.line.toNat ≤ maxLine) {c : HaltCause}
    {code : Word} (hne : c ≠ .illegal) (hcode : c = .hlt ∨ c = .ended → code = 0) : (s.halt c code).Inv := by
  obtain ⟨hhalt, -⟩ := h.status.not_halted (by rw [hrun]; decide)
  have hnone := h.status.faultCause_eq_none (by rw [hrun]; decide)
  have hzero := h.status.not_faulted (by rw [hrun]; decide)
  exact h.inv rfl ⟨hline, nofun, nofun, nofun⟩
    ⟨fun hn => absurd rfl hn, ⟨fun hf => absurd hnone hf, nofun⟩, fun _ => hzero,
      fun _ => h.status.illegalByte_eq_zero hhalt (by decide), fun hi => absurd hi hne, hcode⟩

/-- R226: the halt with ILLEGAL of an unmapped byte. -/
theorem State.Sound.inv_illegal (h : s.Sound) (hrun : s.runState = .running) (hline : s.line.toNat ≤ maxLine) {op : Byte}
    (hop : isUnmapped op = true) : (State.halt { s with illegalByte := op } .illegal 4).Inv := by
  have hnone := h.status.faultCause_eq_none (by rw [hrun]; decide)
  have hzero := h.status.not_faulted (by rw [hrun]; decide)
  exact h.inv rfl ⟨hline, nofun, nofun, nofun⟩
    ⟨fun hn => absurd rfl hn, ⟨fun hf => absurd hnone hf, nofun⟩, fun _ => hzero, fun hn => absurd rfl hn,
      fun _ => ⟨hop, rfl⟩, by rintro (hc | hc) <;> exact nomatch hc⟩

/-- R28: the status records do not tell RUNNING, SUSPENDED and IDLE apart. -/
theorem State.StatusOk.live (h : s.StatusOk) (hlive : s.runState ≠ .halted ∧ s.runState ≠ .faulted) {r : RunState}
    (hr : r ≠ .faulted) (line pc : Word) : ({ s with runState := r, line := line, pc := pc } : State).StatusOk where
  not_halted _ := h.not_halted hlive.1
  fault_iff := ⟨fun hf => absurd (h.faultCause_eq_none hlive.2) hf, fun hf => absurd hf hr⟩
  not_faulted _ := h.not_faulted hlive.2
  not_illegal := h.not_illegal
  illegal := h.illegal
  clean := h.clean

theorem State.live_of_running (hrun : s.runState = .running) : s.runState ≠ .halted ∧ s.runState ≠ .faulted := by
  rw [hrun]; decide

/-- R28, R43: a sound core that is IDLE, with its counters at 0. -/
theorem State.Sound.inv_idle (h : s.Sound) (hidle : s.runState = .idle) (hzero : s.line = 0 ∧ s.pc = 0) : s.Inv :=
  h.inv rfl ⟨by rw [hzero.1]; exact Nat.zero_le _, fun _ => hzero, fun hrun => (nomatch hidle.symm.trans hrun),
    fun hsusp => (nomatch hidle.symm.trans hsusp)⟩ h.status

/-- A sound core that goes on RUNNING, at a line and with a `pc` that fits it. -/
theorem State.Sound.inv_running (h : s.Sound) (hlive : s.runState ≠ .halted ∧ s.runState ≠ .faulted) {line pc : Word}
    (hline : line.toNat ≤ maxLine) (hpc : pc.toNat = line.toNat * 4 ∨ pc = 0) :
    ({ s with runState := .running, line := line, pc := pc } : State).Inv :=
  h.inv rfl ⟨hline, nofun, fun _ _ => hpc, nofun⟩ (h.status.live hlive (by decide) line pc)

/-- R119: in a core that goes on at the next slot, inside the bound of the program. -/
theorem State.Sound.inv_next (h : s.Sound) (hlive : s.runState ≠ .halted ∧ s.runState ≠ .faulted)
    (hline : s.line.toNat * 4 < s.progLen) : ({ s.advance with runState := .running } : State).Inv := by
  have hbound := h.program.bounded
  unfold maxProgLen at hbound
  have hnext : (s.line + 1).toNat = s.line.toNat + 1 :=
    BitVec.toNat_add_of_lt (show s.line.toNat + 1 < 2 ^ 32 by omega)
  have hpc : (linePc (s.line + 1)).toNat = (s.line + 1).toNat * 4 := linePc_toNat (by rw [lineAddress, hnext]; omega)
  have hle : (s.line + 1).toNat ≤ maxLine := by rw [hnext, maxLine]; omega
  exact h.inv_running hlive hle (.inl hpc)

/-! ### Inside an instruction -/

/-- R39, R112: the instruction's bytes lie inside the program. -/
theorem State.Inside.bytes_inside (h : s.Inside i) : s.line.toNat * 4 + i.operandCount < s.progLen :=
  (State.fetch_ok h.fetched).2.1

theorem State.Inside.line_inside (h : s.Inside i) : s.line.toNat * 4 < s.progLen := by
  have := h.bytes_inside; omega

theorem State.Inside.line_le (h : s.Inside i) : s.line.toNat ≤ maxLine := by
  have hinside := h.bytes_inside
  have hbound := h.program.bounded
  unfold maxProgLen at hbound
  unfold maxLine
  omega

/-- A change of data that keeps tables and trace in order stays inside the instruction. -/
theorem State.Inside.of_sameControl (h : s.Inside i) (hu : s.SameControl u) (htables : u.TablesOk)
    (hlegal : ∀ e ∈ u.events, e.Legal) : u.Inside i where
  program := h.program.of_eq hu.prog_eq hu.progLen_eq
  tables := htables
  status := h.status.of_eq (by rw [hu]; rfl)
  legal := hlegal
  clear := hu.stalled_eq.trans h.clear
  running := hu.runState_eq.trans h.running
  fetched := by rw [hu]; exact h.fetched
  pc_eq := by rw [hu]; exact h.pc_eq

theorem State.Inside.setX (h : s.Inside i) (k : Reg) (v : Word) : (s.setX k v).Inside i :=
  h.of_sameControl rfl (h.tables.of_eq rfl rfl rfl) h.legal

theorem State.Inside.setRem (h : s.Inside i) (v : Word) : (s.setRem v).Inside i :=
  h.of_sameControl rfl (h.tables.of_eq rfl rfl rfl) h.legal

theorem State.Inside.toggleLock (h : s.Inside i) (k : Reg) : (s.toggleLock k).Inside i :=
  h.of_sameControl rfl (h.tables.of_eq rfl rfl rfl) h.legal

theorem State.Inside.record (h : s.Inside i) {e : Event} (he : e.Legal) : (s.record e).Inside i := by
  refine h.of_sameControl rfl (h.tables.of_eq rfl rfl rfl) fun e' he' => ?_
  rcases List.mem_append.mp he' with hold | hnew
  · exact h.legal e' hold
  · exact List.mem_singleton.mp hnew ▸ he

/-- R24: a stack within the capacity. -/
theorem State.Inside.setStack (h : s.Inside i) {st : List Word} (hst : st.length ≤ s.config.stackDepth) :
    (s.setStack st).Inside i :=
  h.of_sameControl rfl
    ⟨h.tables.capacity_pos, hst, h.tables.sentinel, h.tables.loc_le, h.tables.invalid_loc⟩ h.legal

/-- R25, R204: the binding of an unbound id to the line of the instruction; the sentinel is bound. -/
theorem State.Inside.bindLabel (h : s.Inside i) {k : Byte} (hk : (s.labelAt k).valid = false) : (s.bindLabel k).Inside i := by
  have hne : k ≠ 0 := by
    rintro rfl
    rw [h.tables.sentinel] at hk
    exact nomatch hk
  refine h.of_sameControl rfl ⟨h.tables.capacity_pos, h.tables.depth_le, ?_, fun j => ?_, fun j hj => ?_⟩ h.legal
  · rw [State.bindLabel_labelAt, if_neg hne, h.tables.sentinel]
  · rw [State.bindLabel_labelAt]
    split
    · exact h.line_le
    · exact h.tables.loc_le j
  · rw [State.bindLabel_labelAt] at hj ⊢
    split at hj
    · exact nomatch hj
    · rw [if_neg ‹_›, h.tables.invalid_loc j hj]

/-! ### The ends of an instruction -/

theorem State.Inside.inv_raise (h : s.Inside i) {c : FaultCause} (hc : c ≠ .none) : (s.raise c).Inv :=
  h.toSound.inv_raise h.running h.line_le hc s.pc

/-- R119. -/
theorem State.Inside.inv_advance (h : s.Inside i) : s.advance.Inv := by
  have hnext := h.toSound.inv_next (State.live_of_running h.running) h.line_inside
  rwa [← h.running] at hnext

/-- R120. -/
theorem State.Inside.inv_branch (h : s.Inside i) {l : Word} (hl : l.toNat ≤ maxLine) :
    ({ s with line := l, pc := 0 } : State).Inv := by
  have hbranch := h.toSound.inv_running (State.live_of_running h.running) hl (.inr rfl)
  rwa [← h.running] at hbranch

/-- R206, each policy. -/
theorem State.Inside.inv_unresolvedGoto (h : s.Inside i) : s.unresolvedGoto.Inv := by
  rcases s.unresolvedGoto_cases with ⟨-, e⟩ | ⟨-, e⟩ | ⟨-, e⟩ <;> rw [e]
  · have hbound := h.program.bounded
    have hinside := h.line_inside
    unfold maxProgLen at hbound
    have hpc : (linePc s.line).toNat = s.line.toNat * 4 := linePc_toNat (by rw [lineAddress]; omega)
    have hretry := h.toSound.inv_running (State.live_of_running h.running) h.line_le (.inl hpc)
    rwa [← h.running] at hretry
  · exact h.inv_advance
  · exact h.inv_raise (by decide)

/-- R224. -/
theorem State.Inside.inv_suspend (h : s.Inside .brk) : ({ s with runState := .suspended } : State).Inv :=
  h.toSound.inv rfl ⟨h.line_le, nofun, nofun, fun _ => ⟨h.pc_eq, h.line_inside⟩⟩
    (h.status.live (State.live_of_running h.running) (by decide) s.line s.pc)

/-- R250: the wait for the acceptance of an event, with a rest the instruction can leave. -/
theorem State.Inside.inv_stallWith (h : s.Inside i) {r : Rest} (hevents : s.events ≠ []) (hr : s.MayLeave i r) :
    (s.stallWith r).Inv where
  program := h.program.of_eq rfl rfl
  counters := ⟨h.line_le, fun hc => (nomatch h.running.symm.trans hc), fun _ hc => (nomatch hc),
    fun hc => (nomatch h.running.symm.trans hc)⟩
  tables := h.tables.of_eq rfl rfl rfl
  status := h.status.of_eq rfl
  events := ⟨h.legal, fun _ => hevents⟩
  stall := ⟨fun _ => h.running, fun _ hq => ⟨i, h.fetched, Option.some.inj hq ▸ hr, h.pc_eq⟩⟩

/-- R250: an event, whether it is accepted at once or waited for. -/
theorem State.Inside.inv_emitThen (h : s.Inside i) {e : Event} {r : Rest} (he : e.Legal) (hr : s.MayLeave i r)
    (hgo : (s.record e).Inside i → (State.finish r (s.record e)).Inv) : (s.emitThen e r).Inv := by
  rcases s.emitThen_cases e r with ⟨-, eq⟩ | ⟨-, eq⟩ <;> rw [eq]
  · exact hgo (h.record he)
  · exact (h.record he).inv_stallWith (by simp) hr

/-- R242: the soft errors of an instruction are events of a legal form. -/
theorem State.Inside.lockedWrite_legal (h : s.Inside i) (k : Reg) :
    (s.softEvent .lockedWrite (BitVec.ofNat 32 k.val)).Legal := by
  refine ⟨h.line_le, .inl ⟨rfl, ?_⟩⟩
  have hk := k.isLt
  change (BitVec.ofNat 32 k.val).toNat < 32
  rw [BitVec.toNat_ofNat, Nat.mod_eq_of_lt (by omega)]
  exact hk

/-- R118: the lock-checked write, whether it is done, rejected, or rejected and waited for. -/
theorem State.Inside.inv_write (h : s.Inside i) (k : Reg) (v : Word) {r : Rest} (hr : s.MayLeave i r)
    (hgo : ∀ u : State, u.Inside i → (State.finish r u).Inv) : (State.finish (.write k v r) s).Inv := by
  rcases s.finish_write_cases k v r with ⟨-, e⟩ | ⟨-, e⟩ <;> rw [e]
  · exact hgo _ (h.setX k v)
  · exact h.inv_emitThen (h.lockedWrite_legal k) hr (hgo _)

/-- R118, R119. -/
theorem State.Inside.inv_put (h : s.Inside i) (k : Reg) (v : Word) (hr : s.MayLeave i .advance) : (s.put k v).Inv :=
  h.inv_write k v hr fun _ hu => hu.inv_advance

/-- R250: what an instruction can have left keeps the invariant when it is done. -/
theorem State.Inside.inv_finish (h : s.Inside i) {r : Rest} (hr : s.MayLeave i r) : (State.finish r s).Inv := by
  cases i with
  | div p q d => obtain ⟨w, rfl⟩ := hr; exact (h.setRem w).inv_advance
  | get k p =>
    rcases hr with rfl | rfl
    · exact h.inv_advance
    · exact (h.setRem 0).inv_advance
  | swp p q =>
    rcases hr with rfl | ⟨a, b, -, -, rfl⟩
    · exact h.inv_advance
    · exact h.inv_put b (s.x a) (.inl rfl)
  | goto k => obtain ⟨-, rfl⟩ := hr; exact h.inv_unresolvedGoto
  | hlt | jmp p | rjmp p | jeq p q | jneq p q | lockr p | brk | label k | igl op => exact hr.elim
  | load _ _ | add _ _ _ | sub _ _ _ | vmcall _ _ _ | eq _ _ _ | neq _ _ _ | and _ _ _ | or _ _ _ | not _ _ | pushrts _
  | poprfs _ => obtain rfl : r = .advance := hr; exact h.inv_advance

/-- R118: an instruction that may write a register, DIV apart, can wait with only the next slot left. -/
theorem State.mayLeave_advance {k : Reg} (hk : s.MayWriteReg i k) (hdiv : ∀ p q d, i ≠ .div p q d) (u : State) :
    u.MayLeave i .advance := by
  cases i with
  | div p q d => exact absurd rfl (hdiv p q d)
  | get | swp => exact .inl rfl
  | hlt | jmp | rjmp | vmcall | jeq | jneq | lockr | brk | label | goto | igl => exact hk.elim
  | load | add | sub | eq | neq | and | or | not | pushrts | poprfs => exact rfl

/-- R143, R181: what DIV and GET can have left. -/
theorem State.mayLeave_setRem {w : Word} (hi : (∃ p q d, i = .div p q d) ∨ w = 0 ∧ ∃ k p, i = .get k p) (u : State) :
    u.MayLeave i (.setRem w .advance) := by
  rcases hi with ⟨p, q, d, rfl⟩ | ⟨rfl, k, p, rfl⟩
  · exact ⟨w, rfl⟩
  · exact .inr rfl

/-- R162: what AND, OR and NOT can have left. -/
theorem State.mayLeave_of_boolean (hi : (∃ p q d, i = .and p q d) ∨ (∃ p q d, i = .or p q d) ∨ ∃ p d, i = .not p d)
    (u : State) : u.MayLeave i .advance := by
  rcases hi with ⟨p, q, d, rfl⟩ | ⟨p, q, d, rfl⟩ | ⟨p, d, rfl⟩ <;> exact rfl

/-- R84 to R86: the byte of a fetched IGL has no mapping. -/
theorem State.Inside.unmapped {op : Byte} (h : s.Inside (.igl op)) : isUnmapped op = true := (State.fetch_ok h.fetched).1

/-- Every end of an instruction meets the invariant. -/
theorem Shape.inv (h : Shape s i t) (hin : s.Inside i) : t.Inv := by
  cases h with
  | fault hc => exact hin.inv_raise hc
  | write v hk hi => exact hin.inv_put _ v (State.mayLeave_advance hk hi.2 s)
  | writeRem v w hk hi => exact hin.inv_write _ v (State.mayLeave_setRem hi s) fun _ hu => (hu.setRem w).inv_advance
  | boolDomain hi =>
    exact hin.inv_emitThen ⟨hin.line_le, .inr (.inl ⟨rfl, rfl⟩)⟩ (State.mayLeave_of_boolean hi s) fun hu => hu.inv_advance
  | swap ha hb =>
    exact hin.inv_write _ _ (.inr ⟨_, _, ha, hb, rfl⟩) fun _ hu => hu.inv_put _ _ (.inl rfl)
  | lock ht => exact (hin.toggleLock _).inv_advance
  | stack st v hk hi hl =>
    have hdiv : ∀ p q d, i ≠ .div p q d := by rintro p q d rfl; simp at hi
    have hdepth := hin.tables.depth_le
    exact (hin.setStack (hl.elim id (·.trans hdepth))).inv_put _ v (State.mayLeave_advance hk hdiv _)
  | branch v h0 h1 hi =>
    refine hin.inv_branch ?_
    rw [maxLine] at h1 ⊢
    rw [BitVec.toNat_ofInt]
    omega
  | advance hi => exact hin.inv_advance
  | bind hk => exact (hin.bindLabel hk).inv_advance
  | unresolved hk =>
    refine hin.inv_emitThen ⟨hin.line_le, .inr (.inr ⟨rfl, ?_⟩)⟩ ⟨hk, rfl⟩ fun hu => hu.inv_unresolvedGoto
    rename_i k
    change (k.setWidth 32).toNat < 256
    rw [BitVec.toNat_setWidth]
    have := k.isLt
    omega
  | print a v =>
    refine hin.inv_emitThen ⟨hin.line_le, ?_⟩ rfl fun hu => hu.inv_advance
    change (if a = 0 then (0 : BitVec 4) else 1) = 0 ∨ (if a = 0 then (0 : BitVec 4) else 1) = 1
    split
    · exact .inl rfl
    · exact .inr rfl
  | exit w => exact hin.toSound.inv_halt hin.running hin.line_le (by decide) fun hc => by simp at hc
  | suspend => exact hin.inv_suspend
  | hlt => exact hin.toSound.inv_halt hin.running hin.line_le (by decide) fun _ => rfl
  | igl => exact hin.toSound.inv_illegal hin.running hin.line_le hin.unmapped

/-! ### The step -/

theorem State.Inv.sound (h : s.Inv) (hst : s.stalled = none) : s.Sound :=
  ⟨h.program, h.tables, h.status, h.events.legal, hst⟩

/-- R38, R40: the schedule and the level of `ev_ready` are no concern of the invariant. -/
theorem State.Inv.withHost (h : s.Inv) (ready : Bool) (inbox : List HostAction) :
    ({ s with evReady := ready, inbox := inbox } : State).Inv where
  program := h.program.of_eq rfl rfl
  counters := ⟨h.counters.line_le, h.counters.idle_zero, h.counters.running_pc, h.counters.suspended_pc⟩
  tables := h.tables.of_eq rfl rfl rfl
  status := h.status.of_eq rfl
  events := ⟨h.events.legal, h.events.presented⟩
  stall := ⟨h.stall.running, h.stall.inside⟩

theorem State.Inv.afterTake (h : s.Inv) : s.afterTake.Inv := h.withHost s.evReady s.inbox.tail

/-- R250, R254: only a RUNNING core waits. -/
theorem State.Inv.clear (h : s.Inv) (hne : s.runState ≠ .running) : s.stalled = none :=
  not_not.mp fun hst => hne (h.stall.running hst)

/-- R110: where the fetch answers an instruction, the core is inside it. -/
theorem State.Inv.inside_atOperands (h : s.Inv) (hrun : s.runState = .running) (hst : s.stalled = none)
    (hf : s.fetch = .ok i) : (s.atOperands i).Inside i where
  program := h.program.of_eq rfl rfl
  tables := h.tables.of_eq rfl rfl rfl
  status := h.status.of_eq rfl
  legal := h.events.legal
  clear := hst
  running := hrun
  fetched := hf
  pc_eq := by
    have hinside := (State.fetch_ok hf).2.1
    have hbound := h.program.bounded
    unfold maxProgLen at hbound
    change (BitVec.ofNat 32 (s.fetchAddress + 1 + i.operandCount)).toNat = _
    rw [BitVec.toNat_ofNat, Nat.mod_eq_of_lt (by omega)]
    rfl

/-- R250: a core that waits is inside the instruction of its line, with a rest that this one can leave. -/
theorem State.Inv.inside_of_stalled (h : s.Inv) {r : Rest} (hst : s.stalled = some r) :
    ∃ i, ({ s with stalled := none } : State).Inside i ∧ ({ s with stalled := none } : State).MayLeave i r := by
  obtain ⟨i, hf, hleave, hpc⟩ := h.stall.inside r hst
  have hsound : ({ s with stalled := none } : State).Sound :=
    ⟨h.program.of_eq rfl rfl, h.tables.of_eq rfl rfl rfl, h.status.of_eq rfl, h.events.legal, rfl⟩
  exact ⟨i, ⟨hsound, h.stall.running (by rw [hst]; nofun), hf, hpc⟩, hleave⟩

/-- R43: the reset state, whatever the host's own fields hold. -/
theorem resetKeeping_inv {c : Config} (hc : 1 ≤ c.stackDepth) (ready : Bool) (inbox : List HostAction) :
    (resetKeeping c ready inbox).Inv where
  program := ⟨rfl, nofun, Nat.zero_le _⟩
  counters := ⟨Nat.zero_le _, fun _ => ⟨rfl, rfl⟩, nofun, nofun⟩
  tables := by
    refine ⟨hc, hc, resetKeeping_labelAt c ready inbox 0, fun k => ?_, fun k hk => ?_⟩ <;> rw [resetKeeping_labelAt]
    · split <;> exact Nat.zero_le _
    · split <;> rfl
  status := ⟨fun _ => ⟨rfl, rfl⟩, ⟨fun h => absurd rfl h, nofun⟩, fun _ => ⟨rfl, rfl⟩, fun _ => rfl, nofun, fun _ => rfl⟩
  events := ⟨nofun, fun h => absurd rfl h⟩
  stall := ⟨fun h => absurd rfl h, nofun⟩

/-- Settles O12: the base case of the invariant. -/
theorem resetMeetsInvariant : Obligations.ResetMeetsInvariant := by
  rw [Obligations.ResetMeetsInvariant, State.reset_eq]
  exact resetKeeping_inv (by decide) true []

/-- R281: a load of at most 2^31 bytes is a program as the invariant asks for one. -/
theorem programOk_of_load {s : State} {bytes : List Byte} (hlen : bytes.length ≤ maxProgLen) :
    ({ s with prog := Memory.ofBytes 0 bytes, progLen := bytes.length } : State).ProgramOk where
  canonical := Memory.wf_ofBytes bytes
  inside c hc := by
    have := (Memory.ofBytes_inside hc).2
    rwa [Nat.zero_add] at this
  bounded := hlen

/-- The invariant is kept by everything a step can do. -/
theorem StepShape.inv (h : StepShape s t) (hinv : s.Inv) : t.Inv := by
  have htake := hinv.afterTake
  cases h with
  | same => exact htake
  | reset ha =>
    rw [State.hostReset_eq]
    exact resetKeeping_inv hinv.tables.capacity_pos _ _
  | load bytes hidle hlen =>
    have hsound := htake.sound (hinv.clear (by rw [hidle]; decide))
    exact State.Sound.inv_idle ⟨programOk_of_load hlen, hsound.tables.of_eq rfl rfl rfl, hsound.status.of_eq rfl, hsound.legal,
      hsound.clear⟩ hidle (hinv.counters.idle_zero hidle)
  | preload k v l ha hidle =>
    have hsound := htake.sound (hinv.clear (by rw [hidle]; decide))
    exact State.Sound.inv_idle ⟨hsound.program.of_eq rfl rfl, hsound.tables.of_eq rfl rfl rfl, hsound.status.of_eq rfl,
      hsound.legal, hsound.clear⟩ hidle (hinv.counters.idle_zero hidle)
  | start ha hidle =>
    have hsound := htake.sound (hinv.clear (by rw [hidle]; decide))
    obtain ⟨-, hpc⟩ := hinv.counters.idle_zero hidle
    have hlive : s.afterTake.runState ≠ .halted ∧ s.afterTake.runState ≠ .faulted :=
      (by rw [hidle]; decide : s.runState ≠ .halted ∧ s.runState ≠ .faulted)
    exact hsound.inv_running hlive hinv.counters.line_le (.inr hpc)
  | resume ha hsusp =>
    have hsound := htake.sound (hinv.clear (by rw [hsusp]; decide))
    obtain ⟨-, hline⟩ := hinv.counters.suspended_pc hsusp
    have hlive : s.afterTake.runState ≠ .halted ∧ s.afterTake.runState ≠ .faulted :=
      (by rw [hsusp]; decide : s.runState ≠ .halted ∧ s.runState ≠ .faulted)
    exact hsound.inv_next hlive hline
  | setReady level => exact hinv.withHost level s.inbox.tail
  | continues r hrun hst =>
    obtain ⟨i, hin, hleave⟩ := htake.inside_of_stalled hst
    exact hin.inv_finish hleave
  | ended hrun hst =>
    exact (htake.sound hst).inv_halt hrun hinv.counters.line_le (by decide) fun _ => rfl
  | overrun a hrun hst => exact (htake.sound hst).inv_raise hrun hinv.counters.line_le (by decide) a
  | instr hrun hst hf hexec => exact (exec_shape hexec).inv (htake.inside_atOperands hrun hst hf)

/-- Settles O13: the invariant is inductive. -/
theorem stepKeepsInvariant : Obligations.StepKeepsInvariant := fun _ _ hinv h => (step_shape h).inv hinv

end Sys2Proof.Machine
end

section
/-! PROOFS. Runs that stay where they are: an ended run (spec/60_exceptions.md R247, R254) and an unresolved GOTO under
retry (spec/45_control.md R206). -/

namespace Sys2Proof.Machine

open Sys2Proof.Claims

theorem State.Ended.not_running {s : State} (h : s.Ended) : s.runState ≠ .running := by
  rcases h with h | h <;> rw [h] <;> decide

/-- R247, R254: a step of an ended run without a reset takes the head of the schedule, which can only drive `ev_ready`. -/
theorem hostStep_of_ended {s : State} (h : s.Ended) {a : HostAction} (ha : a ≠ .reset) :
    ∃ ready, hostStep a s = .next { s with evReady := ready } := by
  have hrun := State.Ended.not_running h
  have hidle : s.runState ≠ .idle := by rcases h with h | h <;> rw [h] <;> decide
  have hsusp : s.runState ≠ .suspended := by rcases h with h | h <;> rw [h] <;> decide
  cases a with
  | reset => exact absurd rfl ha
  | setReady level => exact ⟨level, rfl⟩
  | pass => exact ⟨s.evReady, coreStep_of_not_running hrun⟩
  | load bytes => exact ⟨s.evReady, if_neg hidle⟩
  | preload k v l => exact ⟨s.evReady, congrArg Host.Outcome.next (if_neg hidle)⟩
  | start => exact ⟨s.evReady, congrArg Host.Outcome.next (if_neg hidle)⟩
  | resume => exact ⟨s.evReady, congrArg Host.Outcome.next (if_neg hsusp)⟩
  | accept => exact ⟨s.evReady, congrArg Host.Outcome.next (if_neg hrun)⟩

theorem step_of_ended {s : State} (h : s.Ended) (hreset : HostAction.reset ∉ s.inbox) :
    ∃ ready, step s = .next { s with evReady := ready, inbox := s.inbox.tail } := by
  cases hinbox : s.inbox with
  | nil =>
    refine ⟨s.evReady, ?_⟩
    rw [step_eq_coreStep hinbox, coreStep_of_not_running (State.Ended.not_running h), List.tail_nil, ← hinbox]
  | cons a rest =>
    have hne : a ≠ .reset := fun e => hreset (by rw [hinbox, e]; exact List.mem_cons_self)
    obtain ⟨ready, hstep⟩ := hostStep_of_ended (s := { s with inbox := rest }) h hne
    exact ⟨ready, by rw [step, cycle, hinbox]; exact hstep⟩

/-- R247, R254: any number of steps of an ended run. -/
theorem run_of_ended (n : Nat) {s : State} (h : s.Ended) (hreset : HostAction.reset ∉ s.inbox) :
    ∃ ready inbox, Sys2Proof.core.run n s = .next { s with evReady := ready, inbox := inbox } := by
  induction n generalizing s with
  | zero => exact ⟨s.evReady, s.inbox, rfl⟩
  | succ n ih =>
    obtain ⟨ready, hstep⟩ := step_of_ended h hreset
    rw [run_succ n hstep]
    exact ih (s := { s with evReady := ready, inbox := s.inbox.tail }) h fun hmem => hreset (List.mem_of_mem_tail hmem)

/-- Settles O15: only the schedule and the level of `ev_ready` change. -/
theorem endedRunNeverChanges : Obligations.EndedRunNeverChanges := by
  intro n s h hreset
  obtain ⟨ready, inbox, hrun⟩ := run_of_ended n h hreset
  exact ⟨_, hrun, rfl, rfl, rfl, rfl, rfl, rfl, rfl, rfl, rfl, rfl, rfl, rfl, rfl, rfl, rfl⟩

/-- R206: the hypotheses under which a GOTO of an unbound label runs again and again. -/
structure RetriesGoto (k : Byte) (s : State) : Prop where
  acts : CoreActs s
  ready : s.evReady = true
  retry : s.config.unresolvedGoto = .retry
  pc_inside : s.pc.toNat < s.progLen
  inside : fetchAt s + 1 < s.progLen
  opcode : s.progByte (fetchAt s) = 0x17
  operand : s.progByte (fetchAt s + 1) = k
  unbound : (s.labelAt k).valid = false

/-- R206: what `n` such steps leave. -/
def retried (k : Byte) (s : State) (n : Nat) : State :=
  { s with pc := s.line * 4, events := s.events ++ List.replicate n (Claims.softEvent s 3 (BitVec.ofNat 32 k.toNat)) }

variable {k : Byte} {s : State}

theorem RetriesGoto.fetch (h : RetriesGoto k s) : s.fetch = .ok (.goto k) := by
  refine State.fetch_eq_ok rfl h.inside fun j hj => ?_
  match j, hj with
  | 0, _ => exact h.opcode.symm
  | 1, _ => exact h.operand.symm

/-- R206: under retry, with `ev_ready` high. -/
theorem exec_goto_retry (hk : (s.labelAt k).valid = false) (hm : s.config.unresolvedGoto = .retry) (hready : s.evReady = true) :
    exec (.goto k) s = .next (retried k s 1) := by
  obtain ⟨hretry, -, -⟩ := unboundGotoPolicies k s hk
  rw [hretry hm, afterEvent, if_pos hready]
  rfl

/-- R206: one step. -/
theorem RetriesGoto.step_eq (h : RetriesGoto k s) : step s = .next (retried k s 1) := by
  rw [step_eq_exec_of_fetch h.acts h.pc_inside h.fetch]
  exact exec_goto_retry (s := { s with pc := _ }) h.unbound h.retry h.ready

/-- R206: the state after a step is again at the same GOTO. -/
theorem RetriesGoto.again (h : RetriesGoto k s) : RetriesGoto k (retried k s 1) where
  acts := h.acts
  ready := h.ready
  retry := h.retry
  pc_inside := by
    have hinside := h.inside
    change (s.line * 4).toNat < s.progLen
    rw [BitVec.toNat_mul]
    exact lt_of_le_of_lt (Nat.mod_le _ _) (by unfold fetchAt at hinside; exact Nat.lt_of_succ_lt hinside)
  inside := h.inside
  opcode := h.opcode
  operand := h.operand
  unbound := h.unbound

theorem retried_retried (k : Byte) (s : State) (n : Nat) : retried k (retried k s 1) n = retried k s (n + 1) := by
  simp only [retried, List.append_assoc, List.replicate_append_replicate, Nat.add_comm n 1, Claims.softEvent]

/-- R206, R288: any number of steps, at least one. -/
theorem RetriesGoto.run_eq (h : RetriesGoto k s) (n : Nat) : Sys2Proof.core.run (n + 1) s = .next (retried k s (n + 1)) := by
  induction n generalizing s with
  | zero => rw [run_succ 0 h.step_eq, run_zero]
  | succ n ih => rw [run_succ (n + 1) h.step_eq, ih h.again, retried_retried]

/-- Settles O21: by induction on the number of steps, each of which leaves the core at the same GOTO. -/
theorem unresolvedGotoNeverEnds : Obligations.UnresolvedGotoNeverEnds :=
  fun n _ _ hacts hready hretry hpc hinside hop hk hunbound =>
    RetriesGoto.run_eq ⟨hacts, hready, hretry, hpc, hinside, hop, hk, hunbound⟩ n

end Sys2Proof.Machine
end

section
/-! PROOFS. Operand resolution in byte order (spec/40_execution.md R115 to R117, R124). -/

namespace Sys2Proof.Machine

open Sys2Proof.Claims

variable {s : State} {c : FaultCause} {o : RegOperand}

/-- The operands of a list up to the first that faults, with its cause `c`. -/
def State.FirstFault (s : State) (os : List RegOperand) (c : FaultCause) : Prop :=
  ∃ before o after, os = before ++ o :: after ∧ (∀ o' ∈ before, s.Resolves o') ∧ s.OperandFault o c

/-- The first operand faults, or it resolves and a later one is the first to fault. -/
theorem State.FirstFault.cons_cases {os : List RegOperand} (h : s.FirstFault (o :: os) c) :
    s.OperandFault o c ∨ (s.Resolves o ∧ s.FirstFault os c) := by
  obtain ⟨before, o', after, heq, hbefore, hfault⟩ := h
  cases before with
  | nil =>
    obtain ⟨rfl, -⟩ := List.cons.inj heq
    exact .inl hfault
  | cons b before =>
    obtain ⟨rfl, htail⟩ := List.cons.inj heq
    exact .inr ⟨hbefore o List.mem_cons_self, before, o', after, htail,
      fun o'' hmem => hbefore o'' (List.mem_cons_of_mem _ hmem), hfault⟩

theorem State.not_firstFault_nil : ¬ s.FirstFault [] c := by
  rintro ⟨before, o, after, heq, -⟩
  simp at heq

/-- R117: one operand, then what follows it. -/
theorem State.withPtr_of_firstFault {p : Byte} {os : List RegOperand} (h : s.FirstFault (.indirect p :: os) c)
    {k : Reg → Result} (hk : ∀ i, s.FirstFault os c → k i = .next (faultedWith s c)) :
    s.withPtr p k = .next (faultedWith s c) := by
  rcases h.cons_cases with hfault | ⟨⟨i, hi⟩, hrest⟩
  · exact State.withPtr_of_fault hfault k
  · rw [State.withPtr_of_pointsTo hi, hk i hrest]

theorem State.withPtr1_of_firstFault {p : Byte} (h : s.FirstFault [.indirect p] c) (k : Reg → Result) :
    s.withPtr p k = .next (faultedWith s c) :=
  State.withPtr_of_firstFault h fun _ hnil => absurd hnil State.not_firstFault_nil

theorem State.withPtr2_of_firstFault {p q : Byte} (h : s.FirstFault [.indirect p, .indirect q] c) (k : Reg → Reg → Result) :
    s.withPtr2 p q k = .next (faultedWith s c) :=
  State.withPtr_of_firstFault h fun _ hq => State.withPtr1_of_firstFault hq _

theorem State.withPtr3_of_firstFault {p q d : Byte} (h : s.FirstFault [.indirect p, .indirect q, .indirect d] c)
    (k : Reg → Reg → Reg → Result) : s.withPtr3 p q d k = .next (faultedWith s c) :=
  State.withPtr_of_firstFault h fun _ hqd => State.withPtr2_of_firstFault hqd _

/-- R115, R140: LOAD's direct operand. -/
theorem exec_load_of_firstFault {b : Byte} {imm : BitVec 16} (h : s.FirstFault [.direct b] c) :
    exec (.load b imm) s = .next (faultedWith s c) := by
  rcases h.cons_cases with hfault | ⟨-, hnil⟩
  · rw [exec, execLoad, resolveDirect_error_iff.mpr hfault]; rfl
  · exact absurd hnil State.not_firstFault_nil

/-- R181: GET's operands, by its mode. -/
theorem exec_get_of_firstFault {k p : Byte} (h : s.FirstFault (regOperands s.config.getIdMode (.get k p)) c) :
    exec (.get k p) s = .next (faultedWith s c) := by
  rw [exec, execGet]
  cases hm : s.config.getIdMode <;> rw [hm] at h
  · exact State.withPtr1_of_firstFault h _
  · exact State.withPtr2_of_firstFault h _

/-- Settles O18: by the number of operands of each instruction. -/
theorem operandFaultsInByteOrder : Obligations.OperandFaultsInByteOrder := by
  intro i s before after o c heq hbefore hfault
  have h : s.FirstFault (regOperands s.config.getIdMode i) c := ⟨before, o, after, heq, hbefore, hfault⟩
  cases i with
  | load b imm => exact exec_load_of_firstFault h
  | get k p => exact exec_get_of_firstFault h
  | add | sub | div | vmcall | eq | neq | and | or => exact State.withPtr3_of_firstFault h _
  | jeq | jneq | swp | not => exact State.withPtr2_of_firstFault h _
  | jmp | rjmp | lockr | pushrts | poprfs => exact State.withPtr1_of_firstFault h _
  | hlt | brk | label | goto | igl => exact absurd h State.not_firstFault_nil

end Sys2Proof.Machine
end

section
/-! PROOFS. The events of an instruction (spec/60_exceptions.md R242, R245, R250) and the report of a rejected write
(spec/40_execution.md R118). -/

namespace Sys2Proof.Machine

open Sys2Proof.Claims

/-- The locked registers that a rest still writes, in order: one LOCKED_WRITE for each. -/
def State.lockedEvents (s : State) (r : Rest) : List Event := (r.writes.filter (s.locked ·)).map (lockedEvent s)

theorem State.unresolvedGoto_events_stalled (s : State) :
    s.unresolvedGoto.events = s.events ∧ s.unresolvedGoto.stalled = s.stalled := by
  rcases s.unresolvedGoto_cases with ⟨_, e⟩ | ⟨_, e⟩ | ⟨_, e⟩ <;> rw [e] <;> exact ⟨rfl, rfl⟩

/-- R118, R250: with `ev_ready` high a rest emits one event for each locked register it writes, and does not wait. -/
theorem State.finish_of_ready {s : State} (hready : s.evReady = true) (r : Rest) :
    (State.finish r s).events = s.events ++ s.lockedEvents r ∧ (State.finish r s).stalled = s.stalled := by
  induction r generalizing s with
  | advance => exact ⟨(List.append_nil _).symm, rfl⟩
  | unresolvedGoto =>
    obtain ⟨hevents, hstalled⟩ := s.unresolvedGoto_events_stalled
    exact ⟨hevents.trans (List.append_nil _).symm, hstalled⟩
  | setRem v r ih => exact ih (s := s.setRem v) hready
  | write k v r ih =>
    obtain ⟨hevents, hstalled⟩ := ih (s := s.writeAtOnce k v) (by simpa using hready)
    rw [State.finish_write_of_ready hready, hevents, hstalled, State.writeAtOnce_frame]
    refine ⟨?_, rfl⟩
    cases hk : s.locked k
    · rw [State.writeAtOnce_of_unlocked v hk]
      simp [State.lockedEvents, Rest.writes, hk]
      rfl
    · rw [State.writeAtOnce_of_locked v hk]
      simp [State.lockedEvents, Rest.writes, hk]
      rfl

/-- What a rest leaves after each of its writes. -/
def Rest.afterWrites : Rest → List Rest
  | .advance | .unresolvedGoto => []
  | .setRem _ r => r.afterWrites
  | .write _ _ r => r :: r.afterWrites

/-- R118, R250: with `ev_ready` low a rest that writes no locked register runs to its end, and any other waits at the first
one. -/
theorem State.finish_of_low {s : State} (hlow : s.evReady = false) (r : Rest) :
    ((State.finish r s).events = s.events ∧ (State.finish r s).stalled = s.stalled) ∨
    ∃ k ∈ r.writes, s.locked k = true ∧ (State.finish r s).events = s.events ++ [lockedEvent s k] ∧
      ∃ q ∈ r.afterWrites, (State.finish r s).stalled = some q := by
  induction r generalizing s with
  | advance => exact .inl ⟨rfl, rfl⟩
  | unresolvedGoto => exact .inl s.unresolvedGoto_events_stalled
  | setRem v r ih => exact ih (s := s.setRem v) hlow
  | write k v r ih =>
    rcases s.finish_write_cases k v r with ⟨-, e⟩ | ⟨hk, e⟩ <;> rw [e]
    · rcases ih (s := s.setX k v) hlow with hquiet | ⟨j, hj, hlocked, hevents, q, hq, hst⟩
      · exact .inl hquiet
      · exact .inr ⟨j, List.mem_cons_of_mem _ hj, hlocked, hevents, q, List.mem_cons_of_mem _ hq, hst⟩
    · rw [State.emitThen, if_neg (by simp [hlow])]
      exact .inr ⟨k, List.mem_cons_self, hk, rfl, r, List.mem_cons_self, rfl⟩

/-- R242, R245: an event that an instruction can emit. -/
def State.EventOf (s : State) (i : Instr) (e : Event) : Prop :=
  e.line = s.line ∧
    match e.kind with
    | .print => ∃ p q r, i = .vmcall p q r
    | .softError =>
      (∃ r, s.MayWriteReg i r ∧ s.locked r = true ∧ e = lockedEvent s r) ∨
      (e = Claims.softEvent s 2 0 ∧ ((∃ p q d, i = .and p q d) ∨ (∃ p q d, i = .or p q d) ∨ ∃ p d, i = .not p d)) ∨
      (∃ k, i = .goto k ∧ e = Claims.softEvent s 3 (BitVec.ofNat 32 k.toNat))

/-- R250: the instruction `i` has emitted `es` on its way from `s` to `t`, and waits as it must. -/
structure Emits (s t : State) (i : Instr) (es : List Event) : Prop where
  events : t.events = s.events ++ es
  at_most_two : es.length ≤ 2
  goes_on : s.evReady = true ∨ es = [] → t.stalled = s.stalled
  waits : s.evReady = false → es ≠ [] → es.length = 1 ∧ ∃ r, t.stalled = some r ∧ t.MayLeave i r
  of_instr : ∀ e ∈ es, s.EventOf i e

variable {s t : State} {i : Instr}

theorem Emits.nil (he : t.events = s.events) (hst : t.stalled = s.stalled) : Emits s t i [] :=
  ⟨by rw [he, List.append_nil], Nat.zero_le _, fun _ => hst, fun _ h => absurd rfl h, nofun⟩

/-- R250: one event, waited for. -/
theorem Emits.one_waiting {e : Event} {q : Rest} (hlow : s.evReady = false) (he : t.events = s.events ++ [e])
    (hst : t.stalled = some q) (hq : t.MayLeave i q) (hof : s.EventOf i e) : Emits s t i [e] where
  events := he
  at_most_two := by simp
  goes_on h := by simp [hlow] at h
  waits _ _ := ⟨rfl, q, hst, hq⟩
  of_instr e' he' := List.mem_singleton.mp he' ▸ hof

/-- R250: events accepted at once. -/
theorem Emits.of_ready {es : List Event} (hready : s.evReady = true) (he : t.events = s.events ++ es) (hlen : es.length ≤ 2)
    (hst : t.stalled = s.stalled) (hof : ∀ e ∈ es, s.EventOf i e) : Emits s t i es where
  events := he
  at_most_two := hlen
  goes_on _ := hst
  waits hlow := nomatch hready.symm.trans hlow
  of_instr := hof

theorem State.eventOf_locked {k : Reg} (hk : s.MayWriteReg i k) (hlocked : s.locked k = true) : s.EventOf i (lockedEvent s k) :=
  ⟨rfl, .inl ⟨k, hk, hlocked, rfl⟩⟩

/-- R118: the events of a rest with `ev_ready` high are LOCKED_WRITEs of registers it writes. -/
theorem Emits.finish_of_ready {r : Rest} (hready : s.evReady = true) (hw : ∀ k ∈ r.writes, s.MayWriteReg i k)
    (hlen : r.writes.length ≤ 2) : Emits s (State.finish r s) i (s.lockedEvents r) := by
  obtain ⟨hevents, hstalled⟩ := State.finish_of_ready hready r
  refine .of_ready hready hevents ?_ hstalled fun e he => ?_
  · rw [State.lockedEvents, List.length_map]
    exact (List.length_filter_le _ _).trans hlen
  · obtain ⟨k, hk, rfl⟩ := List.mem_map.mp he
    obtain ⟨hmem, hlocked⟩ := List.mem_filter.mp hk
    exact State.eventOf_locked (hw k hmem) hlocked

/-- R118, R250: a rest whose every wait the instruction can be left in. -/
theorem Emits.finish {r : Rest} (hw : ∀ k ∈ r.writes, s.MayWriteReg i k) (hlen : r.writes.length ≤ 2)
    (hleave : ∀ q ∈ r.afterWrites, ∀ u : State, u.MayLeave i q) : ∃ es, Emits s (State.finish r s) i es := by
  cases hready : s.evReady
  · rcases State.finish_of_low hready r with ⟨he, hst⟩ | ⟨k, hk, hlocked, he, q, hq, hst⟩
    · exact ⟨_, .nil he hst⟩
    · exact ⟨_, .one_waiting hready he hst (hleave q hq _) (State.eventOf_locked (hw k hk) hlocked)⟩
  · exact ⟨_, .finish_of_ready hready hw hlen⟩

/-- R250: an event, then a rest that emits none. -/
theorem Emits.emitThen {e : Event} {r : Rest} (hof : s.EventOf i e) (hr : r.writes = [])
    (hleave : ((s.record e).stallWith r).MayLeave i r) : Emits s (s.emitThen e r) i [e] := by
  rcases s.emitThen_cases e r with ⟨hready, h⟩ | ⟨hlow, h⟩ <;> rw [h]
  · obtain ⟨hevents, hstalled⟩ := State.finish_of_ready (s := s.record e) hready r
    refine .of_ready hready ?_ (by simp) hstalled fun e' he' => List.mem_singleton.mp he' ▸ hof
    rw [hevents, State.lockedEvents, hr]
    exact List.append_nil _
  · exact .one_waiting hlow rfl rfl hleave hof

/-- R180: SWP waits with its second write left only where it has written nothing yet. -/
theorem Emits.swap {p q : Byte} {a b : Reg} (ha : s.PointsTo p a) (hb : s.PointsTo q b) :
    ∃ es, Emits s (State.finish (.write a (s.x b) (.write b (s.x a) .advance)) s) (.swp p q) es := by
  cases hready : s.evReady
  case true =>
    refine ⟨_, .finish_of_ready hready (fun k hk => ?_) le_rfl⟩
    rcases List.mem_cons.mp hk with rfl | hk
    · exact .inl ha
    · exact .inr (List.mem_singleton.mp hk ▸ hb)
  case false =>
    rcases s.finish_write_cases a (s.x b) (.write b (s.x a) .advance) with ⟨-, e⟩ | ⟨hlocked, e⟩ <;> rw [e]
    · rcases State.finish_of_low (s := s.setX a (s.x b)) hready (.write b (s.x a) .advance) with
        ⟨he, hst⟩ | ⟨k, hk, hlocked, he, r, hr, hst⟩
      · exact ⟨_, .nil he hst⟩
      · obtain rfl := List.mem_singleton.mp hk
        obtain rfl := List.mem_singleton.mp hr
        exact ⟨_, .one_waiting hready he hst (.inl rfl) (State.eventOf_locked (.inr hb) hlocked)⟩
    · rw [State.emitThen, if_neg (by simp [hready])]
      exact ⟨_, .one_waiting hready rfl rfl (.inr ⟨a, b, ha, hb, rfl⟩) (State.eventOf_locked (.inl ha) hlocked)⟩

/-- R190, R191: the stack is no concern of the events. -/
theorem Emits.of_setStack {st : List Word} {es : List Event} (h : Emits (s.setStack st) t i es) : Emits s t i es :=
  ⟨h.events, h.at_most_two, h.goes_on, h.waits, h.of_instr⟩

/-- Every shape of an instruction, by the events on the way to it. -/
theorem Shape.emits (h : Shape s i t) : ∃ es, Emits s t i es := by
  cases h with
  | write v hk hi =>
    exact Emits.finish (r := .write _ v .advance) (fun j hj => List.mem_singleton.mp hj ▸ hk) (by simp [Rest.writes])
      fun q hq u => List.mem_singleton.mp hq ▸ State.mayLeave_advance hk hi.2 u
  | writeRem v w hk hi =>
    exact Emits.finish (r := .write _ v (.setRem w .advance)) (fun j hj => List.mem_singleton.mp hj ▸ hk)
      (by simp [Rest.writes]) fun q hq u => List.mem_singleton.mp hq ▸ State.mayLeave_setRem hi u
  | stack st v hk hi hl =>
    have hdiv : ∀ p q d, i ≠ .div p q d := by rintro p q d rfl; simp at hi
    obtain ⟨es, hes⟩ := Emits.finish (s := s.setStack st) (i := i) (r := .write _ v .advance)
      (fun j hj => List.mem_singleton.mp hj ▸ hk) (by simp [Rest.writes])
      fun q hq u => List.mem_singleton.mp hq ▸ State.mayLeave_advance hk hdiv u
    exact ⟨es, hes.of_setStack⟩
  | swap ha hb => exact Emits.swap ha hb
  | boolDomain hi =>
    exact ⟨_, .emitThen ⟨rfl, .inr (.inl ⟨rfl, hi⟩)⟩ rfl (State.mayLeave_of_boolean hi _)⟩
  | @unresolved k hk =>
    rw [State.softEvent_unresolvedLabel]
    exact ⟨_, .emitThen ⟨rfl, .inr (.inr ⟨k, rfl, rfl⟩)⟩ rfl ⟨hk, rfl⟩⟩
  | print a v => exact ⟨_, .emitThen ⟨rfl, _, _, _, rfl⟩ rfl rfl⟩
  | fault | lock | branch | advance | bind | exit | suspend | hlt | igl => exact ⟨_, .nil rfl rfl⟩

/-- Settles O47: by what the instruction can do. -/
theorem eventsOfAnInstruction : Obligations.EventsOfAnInstruction := by
  intro i s t h
  obtain ⟨es, hes⟩ := (exec_shape h).emits
  exact ⟨es, hes.events, hes.at_most_two, hes.goes_on, hes.waits, hes.of_instr⟩

/-- R116: an operand points to one register only. -/
theorem State.PointsTo.unique {b : Byte} {j k : Reg} (hj : s.PointsTo b j) (hk : s.PointsTo b k) : j = k :=
  Except.ok.inj ((State.ptr_ok_iff.mpr hj).symm.trans (State.ptr_ok_iff.mpr hk))

/-- R115 to R117: but for SWP, an instruction may write one register only. -/
theorem State.MayWriteReg.unique (hi : ∀ p q, i ≠ .swp p q) {j k : Reg} (hj : s.MayWriteReg i j) (hk : s.MayWriteReg i k) :
    j = k := by
  cases i with
  | swp p q => exact absurd rfl (hi p q)
  | load b imm => exact Fin.ext (hj.symm.trans hk)
  | add | sub | div | eq | neq | and | or | not | get | pushrts | poprfs => exact State.PointsTo.unique hj hk
  | hlt | jmp | rjmp | vmcall | jeq | jneq | lockr | brk | label | goto | igl => exact hj.elim

/-- R118: a rest with `ev_ready` high that writes a locked register reports it. -/
theorem State.lockedEvent_mem_finish {r : Rest} (hready : s.evReady = true) {k : Reg} (hk : k ∈ r.writes)
    (hlocked : s.locked k = true) :
    ∃ es, (State.finish r s).events = s.events ++ es ∧ lockedEvent s k ∈ es :=
  ⟨_, (State.finish_of_ready hready r).1, List.mem_map_of_mem (List.mem_filter.mpr ⟨hk, hlocked⟩)⟩

/-- R118, R162: an instruction that has run to its end has reported its attempt at a locked register, or BOOL_DOMAIN. -/
theorem Shape.reports (h : Shape s i t) {r : Reg} (hlocked : s.locked r = true) (hr : s.MayWriteReg i r)
    (hready : s.evReady = true) (ht : t.runState ≠ .faulted) :
    ∃ es, t.events = s.events ++ es ∧ (lockedEvent s r ∈ es ∨ Claims.softEvent s 2 0 ∈ es) := by
  have hreport : ∀ {u : State} {q : Rest}, u.evReady = true → u.events = s.events → u.locked r = true →
      lockedEvent u r = lockedEvent s r → r ∈ q.writes →
      ∃ es, (State.finish q u).events = s.events ++ es ∧ (lockedEvent s r ∈ es ∨ Claims.softEvent s 2 0 ∈ es) := by
    intro u q hu he hl hev hq
    obtain ⟨es, hes, hmem⟩ := State.lockedEvent_mem_finish hu hq hl
    exact ⟨es, he ▸ hes, .inl (hev ▸ hmem)⟩
  cases h with
  | fault => exact absurd rfl ht
  | write v hk hi =>
    obtain rfl := State.MayWriteReg.unique hi.1 hr hk
    exact hreport hready rfl hlocked rfl List.mem_cons_self
  | writeRem v w hk hi =>
    have hswp : ∀ p q, i ≠ .swp p q := by rintro p q rfl; simp at hi
    obtain rfl := State.MayWriteReg.unique hswp hr hk
    exact hreport hready rfl hlocked rfl List.mem_cons_self
  | stack st v hk hi hl =>
    have hswp : ∀ p q, i ≠ .swp p q := by rintro p q rfl; simp at hi
    obtain rfl := State.MayWriteReg.unique hswp hr hk
    exact hreport (u := s.setStack st) hready rfl hlocked rfl List.mem_cons_self
  | swap ha hb =>
    refine hreport hready rfl hlocked rfl ?_
    rcases hr with hr | hr
    · exact State.PointsTo.unique hr ha ▸ List.mem_cons_self
    · exact List.mem_cons_of_mem _ (State.PointsTo.unique hr hb ▸ List.mem_cons_self)
  | boolDomain hi =>
    refine ⟨[Claims.softEvent s 2 0], ?_, .inr List.mem_cons_self⟩
    rw [State.emitThen, if_pos hready]
    rfl
  | branch v h0 h1 hi =>
    rcases hi with ⟨p, rfl⟩ | ⟨p, rfl⟩ | ⟨p, q, rfl⟩ | ⟨p, q, rfl⟩ | ⟨k, rfl⟩ <;> exact hr.elim
  | advance hi => rcases hi with ⟨p, q, rfl⟩ | ⟨p, q, rfl⟩ | ⟨k, rfl⟩ <;> exact hr.elim
  | lock | bind | unresolved | print | exit | suspend | hlt | igl => exact hr.elim

/-- R22: a step leaves a locked register but for a reset and a preload of it. -/
theorem StepShape.x_eq_of_locked (h : StepShape s t) {r : Reg} (hlocked : s.locked r = true)
    (hreset : s.inbox.head? ≠ some .reset) (hpreload : ∀ v l, s.inbox.head? ≠ some (.preload r v l)) : t.x r = s.x r := by
  cases h with
  | reset ha => exact absurd ha hreset
  | preload k v l ha hidle =>
    have hkr : k ≠ r := by rintro rfl; exact hpreload v l ha
    exact get_set_of_ne s.regs v hkr
  | continues q => exact State.finish_x q _ r (.inr hlocked)
  | instr hrun hst hf hexec => exact (exec_shape hexec).x_eq (.inr hlocked)
  | same | load | start | resume | setReady | ended | overrun => rfl

/-- Settles O48: the frame of a locked register, the report of the attempt, and the frame over whole steps. -/
theorem lockedRegisterKeepsContent : Obligations.LockedRegisterKeepsContent := fun _ _ _ hlocked =>
  ⟨fun _ h => ⟨(exec_shape h).x_eq (.inr hlocked), fun hr hready _ ht => (exec_shape h).reports hlocked hr hready ht⟩,
    fun h hreset hpreload => (step_shape h).x_eq_of_locked hlocked hreset hpreload⟩

end Sys2Proof.Machine
end

section
/-! PROOFS. Waiting inside an instruction (spec/60_exceptions.md R250): an instruction executed with `ev_ready` low and with
`ev_ready` high does the same effects, and the acceptances make up for the difference. -/

namespace Sys2Proof.Machine

open Sys2Proof.Claims

/-! ### What the acceptances lead to -/

/-- The schedule of `n` acceptances. -/
def State.accepting (s : State) (n : Nat) : State := { s with inbox := List.replicate n .accept }

/-- From `t`, `n` acceptances lead to `u` (but for the level of `ev_ready`); and where `t` waits, the core's next step with
`ev_ready` high leads to `u`. -/
structure LeadsBy (n : Nat) (t u : State) : Prop where
  by_accept : Sys2Proof.core.run n (t.accepting n) = .next (u.hostSetReady false)
  by_level : t.stalled ≠ none → t.runState = .running ∧ step (t.hostSetReady true) = .next u

section

variable {x : State}

/-- Nothing is left to do. -/
theorem LeadsBy.done (hinbox : x.inbox = []) (hst : x.stalled = none) : LeadsBy 0 (x.hostSetReady false) (x.hostSetReady true) where
  by_accept := congrArg Host.Outcome.next (by rw [State.accepting, List.replicate_zero, ← hinbox]; rfl)
  by_level h := absurd hst h

/-- A state without a wait and without a transaction to come is the one that a wait ends in. -/
theorem CoreActs.clear_wait (hacts : CoreActs x) (b : Bool) (r : Rest) :
    ({ (x.hostSetReady b).stallWith r with stalled := none } : State) = x.hostSetReady b := by
  obtain ⟨-, hst, -⟩ := hacts
  rw [State.stallWith, State.hostSetReady, ← hst]

/-- R250: one acceptance of the event that `r` waits for. -/
theorem step_accepting (hacts : CoreActs x) (b : Bool) (r : Rest) (n : Nat) :
    step (((x.hostSetReady b).stallWith r).accepting (n + 1)) = .next ((State.finish r (x.hostSetReady b)).accepting n) := by
  have hclear := CoreActs.clear_wait hacts b r
  obtain ⟨-, -, hrun⟩ := hacts
  have haccept : step (((x.hostSetReady b).stallWith r).accepting (n + 1)) =
      .next (((x.hostSetReady b).stallWith r).accepting n).hostAccept :=
    step_accept_cons ((x.hostSetReady b).stallWith r) (List.replicate n .accept)
  have hfinish : (((x.hostSetReady b).stallWith r).accepting n).hostAccept =
      State.finish r ({ (x.hostSetReady b).stallWith r with stalled := none }.within x.prog (List.replicate n .accept)) :=
    if_pos hrun
  have hprog : (State.finish r (x.hostSetReady b)).prog = x.prog := State.finish_prog _ r
  rw [haccept, hfinish, hclear, State.within_finish, ← hprog]
  rfl

/-- R250 (log 21): the core's step that finds `ev_ready` high. -/
theorem step_level (hacts : CoreActs x) (b : Bool) (r : Rest) :
    step (((x.hostSetReady b).stallWith r).hostSetReady true) = .next (State.finish r (x.hostSetReady true)) := by
  have hclear := CoreActs.clear_wait hacts true r
  obtain ⟨hinbox, -, hrun⟩ := hacts
  have hcore : coreStep (((x.hostSetReady true).stallWith r)) =
      .next (State.finish r { (x.hostSetReady true).stallWith r with stalled := none }) := by
    unfold coreStep
    rw [show ((x.hostSetReady true).stallWith r).runState = .running from hrun]
    rfl
  rw [← hclear, ← hcore]
  exact step_eq_coreStep hinbox

/-- R250: a wait costs one acceptance more than what follows it. -/
theorem LeadsBy.wait {n : Nat} {r : Rest} (hacts : CoreActs x)
    (h : LeadsBy n (State.finish r (x.hostSetReady false)) (State.finish r (x.hostSetReady true))) :
    LeadsBy (n + 1) ((x.hostSetReady false).stallWith r) (State.finish r (x.hostSetReady true)) where
  by_accept := by rw [run_succ n (step_accepting hacts false r n), h.by_accept]
  by_level _ := ⟨hacts.2.2, step_level hacts false r⟩

/-- R206: the policy does not read the level of `ev_ready`. -/
theorem LeadsBy.unresolvedGoto (hacts : CoreActs x) :
    LeadsBy 0 (x.hostSetReady false).unresolvedGoto (x.hostSetReady true).unresolvedGoto := by
  obtain ⟨hinbox, hst, -⟩ := hacts
  have hpolicy : ∀ b, (x.hostSetReady b).unresolvedGoto = x.unresolvedGoto.hostSetReady b := by
    intro b
    unfold State.unresolvedGoto
    rw [State.hostSetReady_config]
    cases x.config.unresolvedGoto <;> rfl
  rw [hpolicy, hpolicy]
  exact .done ((State.finish_inbox x .unresolvedGoto).trans hinbox) (x.unresolvedGoto_events_stalled.2.trans hst)

/-- R250: the effects of a rest, with at most one acceptance for each register it writes. -/
theorem LeadsBy.finish (r : Rest) (hacts : CoreActs x) : ∃ n ≤ r.writes.length,
    LeadsBy n (State.finish r (x.hostSetReady false)) (State.finish r (x.hostSetReady true)) := by
  induction r generalizing x with
  | advance => exact ⟨0, le_rfl, .done (x := x.advance) hacts.1 hacts.2.1⟩
  | unresolvedGoto => exact ⟨0, le_rfl, .unresolvedGoto hacts⟩
  | setRem v r ih => exact ih (x := x.setRem v) hacts
  | write k v r ih =>
    cases hk : x.locked k
    case false =>
      have hset : ∀ b, State.finish (.write k v r) (x.hostSetReady b) = State.finish r ((x.setX k v).hostSetReady b) :=
        fun b => if_neg (by simp [hk])
      obtain ⟨n, hn, h⟩ := ih (x := x.setX k v) hacts
      exact ⟨n, Nat.le_succ_of_le hn, by rw [hset, hset]; exact h⟩
    case true =>
      obtain ⟨n, hn, h⟩ := ih (x := x.record (lockedEvent x k)) hacts
      refine ⟨n + 1, Nat.succ_le_succ hn, ?_⟩
      have hlow : State.finish (.write k v r) (x.hostSetReady false) =
          ((x.record (lockedEvent x k)).hostSetReady false).stallWith r := if_pos hk
      have hhigh : State.finish (.write k v r) (x.hostSetReady true) =
          State.finish r ((x.record (lockedEvent x k)).hostSetReady true) := if_pos hk
      rw [hlow, hhigh]
      exact .wait hacts h

end

/-! ### How an instruction's answer depends on `ev_ready` -/

/-- Not at all, or by the effects of a rest, or by an event and a rest. -/
inductive ByReady (s : State) (f : Bool → State) : Prop
  | still (t : State) (hinbox : t.inbox = s.inbox) (hst : t.stalled = s.stalled) (h : ∀ b, f b = t.hostSetReady b)
  | finish (r : Rest) (hr : r.writes.length ≤ 2) (st : List Word)
      (h : ∀ b, f b = State.finish r ((s.setStack st).hostSetReady b))
  | emit (e : Event) (r : Rest) (hr : r.writes = []) (h : ∀ b, f b = (s.hostSetReady b).emitThen e r)

/-- An answer that is such a next state. -/
def AnswersByReady (s : State) (F : Bool → Result) : Prop := ∃ f, ByReady s f ∧ ∀ b, F b = .next (f b)

/-- The acceptances make up for the level of `ev_ready`. -/
theorem ByReady.leadsBy {s : State} {f : Bool → State} (h : ByReady s f) (hacts : CoreActs s) :
    ∃ n ≤ 2, LeadsBy n (f false) (f true) := by
  cases h with
  | still t hinbox hst h =>
    rw [h, h]
    exact ⟨0, Nat.zero_le 2, .done (hinbox.trans hacts.1) (hst.trans hacts.2.1)⟩
  | finish r hr st h =>
    obtain ⟨n, hn, hlead⟩ := LeadsBy.finish r (x := s.setStack st) hacts
    rw [h, h]
    exact ⟨n, hn.trans hr, hlead⟩
  | emit e r hr h =>
    obtain ⟨n, hn, hlead⟩ := LeadsBy.finish r (x := s.record e) hacts
    rw [hr, List.length_nil] at hn
    have hlow : (s.hostSetReady false).emitThen e r = ((s.record e).hostSetReady false).stallWith r := rfl
    have hhigh : (s.hostSetReady true).emitThen e r = State.finish r ((s.record e).hostSetReady true) := rfl
    rw [h, h, hlow, hhigh]
    exact ⟨n + 1, by omega, .wait hacts hlead⟩

section

variable (s : State)

theorem State.raise_byReady (c : FaultCause) : ByReady s fun b => (s.hostSetReady b).raise c :=
  .still (s.raise c) rfl rfl fun _ => rfl

theorem State.finish_byReady (r : Rest) (hr : r.writes.length ≤ 2) : ByReady s fun b => State.finish r (s.hostSetReady b) :=
  .finish r hr s.stack fun _ => rfl

theorem State.put_byReady (k : Reg) (v : Word) : ByReady s fun b => (s.hostSetReady b).put k v :=
  s.finish_byReady (.write k v .advance) (by simp [Rest.writes])

theorem State.putExact_byReady (k : Reg) (v : Int) : ByReady s fun b => (s.hostSetReady b).putExact k v := by
  simp only [State.putExact, State.hostSetReady_config]
  split
  · exact s.put_byReady k _
  · split
    · exact s.raise_byReady _
    · exact s.put_byReady k _

theorem State.putBool_byReady (d : Bool) (k : Reg) (v : Word) : ByReady s fun b => (s.hostSetReady b).putBool d k v := by
  cases d
  · exact .emit (s.softEvent .boolDomain 0) .advance rfl fun _ => rfl
  · exact s.put_byReady k v

theorem State.divide_byReady (v w : Int) (k : Reg) : ByReady s fun b => (s.hostSetReady b).divide v w k := by
  unfold State.divide
  split
  · exact s.raise_byReady _
  · split
    · exact s.raise_byReady _
    · exact s.finish_byReady _ (by simp [Rest.writes])

theorem State.getHidden_byReady (z : Bool) (d : Reg) : ByReady s fun b => (s.hostSetReady b).getHidden z d := by
  cases z
  · exact s.put_byReady d 0
  · exact s.finish_byReady (.write d s.rem (.setRem 0 .advance)) (by simp [Rest.writes])

theorem State.pushFrom_byReady (k : Reg) : ByReady s fun b => (s.hostSetReady b).pushFrom k := by
  by_cases hfull : s.config.stackDepth ≤ s.stack.length
  · exact .still (s.raise .stackOverflow) rfl rfl fun _ => if_pos hfull
  · exact .finish (.write k 0 .advance) (by simp [Rest.writes]) (s.stack ++ [s.x k]) fun _ => if_neg hfull

theorem State.popInto_byReady (k : Reg) : ByReady s fun b => (s.hostSetReady b).popInto k := by
  simp only [State.popInto, State.hostSetReady_stack]
  split
  · exact s.raise_byReady _
  · exact .finish (.write k _ .advance) (by simp [Rest.writes]) s.stack.dropLast fun _ => rfl

theorem State.advance_byReady : ByReady s fun b => (s.hostSetReady b).advance := .still s.advance rfl rfl fun _ => rfl

theorem State.branchTo_byReady (t : Int) : ByReady s fun b => (s.hostSetReady b).branchTo t := by
  unfold State.branchTo
  split
  · exact s.raise_byReady _
  · exact .still { s with line := BitVec.ofInt 32 t, pc := 0 } rfl rfl fun _ => rfl

theorem State.branchWhen_byReady (z : Bool) (t : Int) : ByReady s fun b => (s.hostSetReady b).branchWhen z t := by
  cases z
  · exact s.advance_byReady
  · exact s.branchTo_byReady t

theorem State.halt_byReady (c : HaltCause) (w : Word) : ByReady s fun b => (s.hostSetReady b).halt c w :=
  .still (s.halt c w) rfl rfl fun _ => rfl

theorem State.hostCall_byReady (n v w : Word) : ByReady s fun b => (s.hostSetReady b).hostCall n v w := by
  unfold State.hostCall
  split
  · exact .emit { kind := .print, code := if v = 0 then 0 else 1, line := s.line, data := w } .advance rfl fun _ => rfl
  · split
    · exact s.halt_byReady _ _
    · exact s.raise_byReady _

variable {s}

theorem ByReady.answers {f : Bool → State} (h : ByReady s f) : AnswersByReady s fun b => .next (f b) := ⟨f, h, fun _ => rfl⟩

theorem State.withPtr_byReady (p : Byte) {F : Bool → Reg → Result} (hF : ∀ i, AnswersByReady s fun b => F b i) :
    AnswersByReady s fun b => (s.hostSetReady b).withPtr p (F b) := by
  rcases s.withPtr_cases p fun _ => .next s with ⟨c, hc, -⟩ | ⟨i, hi, -⟩
  · exact ⟨_, s.raise_byReady c, fun b => State.withPtr_of_fault (s := s.hostSetReady b) hc _⟩
  · obtain ⟨f, hf, h⟩ := hF i
    exact ⟨f, hf, fun b => (State.withPtr_of_pointsTo (s := s.hostSetReady b) hi _).trans (h b)⟩

theorem State.withPtr1_byReady (p : Byte) {f : Bool → Reg → State} (hf : ∀ i, ByReady s fun b => f b i) :
    AnswersByReady s fun b => (s.hostSetReady b).withPtr p fun i => .next (f b i) :=
  State.withPtr_byReady p fun i => (hf i).answers

theorem State.withPtr2_byReady (p q : Byte) {f : Bool → Reg → Reg → State} (hf : ∀ i j, ByReady s fun b => f b i j) :
    AnswersByReady s fun b => (s.hostSetReady b).withPtr2 p q fun i j => .next (f b i j) :=
  State.withPtr_byReady p fun i => State.withPtr1_byReady q fun j => hf i j

theorem State.withPtr3_byReady (p q d : Byte) {f : Bool → Reg → Reg → Reg → State} (hf : ∀ i j l, ByReady s fun b => f b i j l) :
    AnswersByReady s fun b => (s.hostSetReady b).withPtr3 p q d fun i j l => .next (f b i j l) :=
  State.withPtr_byReady p fun i => State.withPtr2_byReady q d fun j l => hf i j l

end

theorem execLoad_byReady (s : State) (r : Byte) (imm : BitVec 16) :
    AnswersByReady s fun b => execLoad r imm (s.hostSetReady b) := by
  unfold execLoad
  cases resolveDirect r with
  | error c => exact (s.raise_byReady c).answers
  | ok k => exact (s.put_byReady k _).answers

theorem execGet_byReady (s : State) (k p : Byte) : AnswersByReady s fun b => execGet k p (s.hostSetReady b) := by
  simp only [execGet, State.hostSetReady_config]
  cases s.config.getIdMode
  · exact State.withPtr1_byReady p fun d => s.getHidden_byReady (k == 0) d
  · exact State.withPtr2_byReady k p fun i d => s.getHidden_byReady (s.x i == 0) d

theorem execLabel_byReady (s : State) (k : Byte) : AnswersByReady s fun b => execLabel k (s.hostSetReady b) := by
  by_cases hv : (s.labelAt k).valid = true
  · exact ⟨_, s.advance_byReady, fun _ => congrArg Host.Outcome.next (if_pos hv)⟩
  · exact ⟨_, .still (s.bindLabel k).advance rfl rfl fun _ => rfl, fun _ => congrArg Host.Outcome.next (if_neg hv)⟩

theorem execGoto_byReady (s : State) (k : Byte) : AnswersByReady s fun b => execGoto k (s.hostSetReady b) := by
  by_cases hv : (s.labelAt k).valid = true
  · exact ⟨_, s.branchTo_byReady (s.labelAt k).loc.toNat, fun _ => congrArg Host.Outcome.next (if_pos hv)⟩
  · exact ⟨_, .emit (s.softEvent .unresolvedLabel (k.setWidth 32)) .unresolvedGoto rfl fun _ => rfl,
      fun _ => congrArg Host.Outcome.next (if_neg hv)⟩

/-- The answer of every instruction depends on `ev_ready` in one of these ways. -/
theorem exec_byReady (i : Instr) (s : State) : AnswersByReady s fun b => exec i (s.hostSetReady b) := by
  cases i with
  | hlt => exact (s.halt_byReady .hlt 0).answers
  | load r imm => exact execLoad_byReady s r imm
  | add p q d => exact State.withPtr3_byReady p q d fun i j k => s.putExact_byReady k ((s.x i).toInt + (s.x j).toInt)
  | sub p q d => exact State.withPtr3_byReady p q d fun i j k => s.putExact_byReady k ((s.x i).toInt - (s.x j).toInt)
  | div p q d => exact State.withPtr3_byReady p q d fun i j k => s.divide_byReady (s.x i).toInt (s.x j).toInt k
  | jmp p => exact State.withPtr1_byReady p fun i => s.branchTo_byReady (s.x i).toInt
  | rjmp p => exact State.withPtr1_byReady p fun i => s.branchTo_byReady (s.line.toNat + (s.x i).toInt)
  | vmcall p q r => exact State.withPtr3_byReady p q r fun i j k => s.hostCall_byReady (s.x i) (s.x j) (s.x k)
  | eq p q d => exact State.withPtr3_byReady p q d fun i j k => s.put_byReady k (boolWord (s.x i == s.x j))
  | jeq p q => exact State.withPtr2_byReady p q fun i j => s.branchWhen_byReady (s.x i == 1) (s.x j).toInt
  | neq p q d => exact State.withPtr3_byReady p q d fun i j k => s.put_byReady k (boolWord (s.x i != s.x j))
  | jneq p q => exact State.withPtr2_byReady p q fun i j => s.branchWhen_byReady (s.x i == 0) (s.x j).toInt
  | swp p q =>
    exact State.withPtr2_byReady p q fun i j => s.finish_byReady (.write i (s.x j) (.write j (s.x i) .advance)) le_rfl
  | and p q d =>
    exact State.withPtr3_byReady p q d fun i j k =>
      s.putBool_byReady (inBoolDomain (s.x i) && inBoolDomain (s.x j)) k (boolWord (s.x i == 1 && s.x j == 1))
  | or p q d =>
    exact State.withPtr3_byReady p q d fun i j k =>
      s.putBool_byReady (inBoolDomain (s.x i) && inBoolDomain (s.x j)) k (boolWord (s.x i == 1 || s.x j == 1))
  | not p d => exact State.withPtr2_byReady p d fun i k => s.putBool_byReady (inBoolDomain (s.x i)) k (1 - s.x i)
  | get k p => exact execGet_byReady s k p
  | lockr p => exact State.withPtr1_byReady p fun t => .still (s.toggleLock t).advance rfl rfl fun _ => rfl
  | pushrts p => exact State.withPtr1_byReady p fun t => s.pushFrom_byReady t
  | poprfs p => exact State.withPtr1_byReady p fun t => s.popInto_byReady t
  | brk => exact ByReady.answers (.still { s with runState := .suspended } rfl rfl fun _ => rfl)
  | label k => exact execLabel_byReady s k
  | goto k => exact execGoto_byReady s k
  | igl op => exact ByReady.answers (.still ({ s with illegalByte := op }.halt .illegal 4) rfl rfl fun _ => rfl)

/-- Settles O17: whatever `ev_ready` is, the answer is a next state. -/
theorem everyInstructionAnswersNext : Obligations.EveryInstructionAnswersNext := by
  intro i s
  obtain ⟨f, -, h⟩ := exec_byReady i s
  exact ⟨f s.evReady, h s.evReady⟩

/-- Settles O59: both answers come from the same dependence on `ev_ready`, whose waits the acceptances end. -/
theorem waitingChangesOnlyTheMoment : Obligations.WaitingChangesOnlyTheMoment := by
  intro i s t u hacts hlow ht hu
  obtain ⟨f, hf, h⟩ := exec_byReady i s
  have hs : s.hostSetReady false = s := by rw [← hlow, State.hostSetReady]
  obtain rfl : t = f false := next_inj ((h false).symm.trans ((congrArg (exec i) hs).trans ht))
  obtain rfl : u = f true := next_inj ((h true).symm.trans hu)
  obtain ⟨n, hn, hlead⟩ := hf.leadsBy hacts
  exact ⟨⟨n, hn, hlead.by_accept⟩, hlead.by_level⟩

end Sys2Proof.Machine
end
